-- ==== Sys2Proof/Word.lean ====
section
/-! DEFINITION. The bit patterns and character strings the block's ports carry. -/

namespace Sys2Proof

/-- A 32-bit port value, a bit pattern (R11, R25): `left`, `right`, `width_tag`. -/
abbrev Word := BitVec 32

/-- The packed 128-bit request word (R50). -/
abbrev ReqWord := BitVec 128

/-- One byte on a byte-wide bus (R41) or one ASCII code (R155). -/
abbrev Byte := BitVec 8

/-- A string of the block: a finite sequence of characters, index 0 leftmost (R13). -/
abbrev Text := List Char

end Sys2Proof
end

