-- ==== Sys2Proof/Config.lean ====
section
/-! DEFINITION. The implementation parameters (R8), and the values the spec leaves open. -/

namespace Sys2Proof

/-- The closed set of legal word widths, 4, 8, 16 and 32 bits (R8 `WIDTHS`, R70). Their constants are in
Machine/Operands.lean. -/
inductive Width where
  | w4
  | w8
  | w16
  | w32
deriving DecidableEq, Repr

/-- `hostByteOrder` (R8, R41, D16): which byte of the request word each of the 16 lanes of a byte-wide bus carries. Lane
`k` carries byte `o k`, where byte `j` is bits `8j+7 .. 8j`. The spec leaves it open, so it is any permutation. -/
abbrev HostByteOrder := Equiv.Perm (Fin 16)

/-- The byte order this realisation's host chose: open, and no rule of the block depends on it (R8, R41). Log 6. -/
opaque Config.hostByteOrder : HostByteOrder

/-- FREE VALUE: which of several waiting requests is answered next (R45, D15, I7). It is applied to the number of such
choices already taken, so nothing is known about it. Log 2. -/
opaque Config.serviceOrder : Nat → Nat

/-- FREE VALUE: how many requests may be answered by free choice before a request that has become the oldest waiting one is. It is
a number, and nothing else is known about it, so every order of service is possible in which no request waits for ever (R208). Log 2. -/
opaque Config.patience : Nat → Nat

end Sys2Proof
end

