-- ==== Sys2Proof/Syntax.lean ====
section
/-! DEFINITION. Requests as fields, instructions, and assembly lines. -/

namespace Sys2Proof

/-- The fields of a request word, reserved bits included (R50). -/
structure Request where
  left : Word
  right : Word
  widthTag : Word
  rsv : BitVec 29
  op : BitVec 3
deriving DecidableEq, Repr

/-- The closed operation set (R15, R55): the source's `OperationKind`, and FORMAT. -/
inductive Operation where
  | add
  | sub
  | and
  | or
  | xor
  | nand
  | format
deriving DecidableEq, Repr

/-- One constructor per row of the opcode table. The fields are the raw 32-bit patterns of the request (R25, R56): masking and
the width check are the operation's own business. FORMAT keeps the `right` field that it ignores (R58), so that a request
word and its instruction determine each other (log 8). -/
inductive Instr where
  /-- ADD (R99). -/
  | add (left right widthTag : Word)
  /-- SUB (R117). -/
  | sub (left right widthTag : Word)
  /-- AND (R135). -/
  | and (left right widthTag : Word)
  /-- OR (R136). -/
  | or (left right widthTag : Word)
  /-- XOR (R137). -/
  | xor (left right widthTag : Word)
  /-- NAND (R138). -/
  | nand (left right widthTag : Word)
  /-- FORMAT (R156). -/
  | format (value ignored widthTag : Word)
deriving DecidableEq, Repr

/-- One line of assembly after reading its text (R61, R62): a mnemonic and its literals, not yet checked for number or
range. -/
structure AsmLine where
  op : Operation
  args : List Int
deriving DecidableEq, Repr

/-- Why the assembler refuses a line (R61, R62). -/
inductive AsmError where
  /-- The line has not the form `mnemonic(argument, ...)`. -/
  | badForm
  /-- The name is none of the seven lower-case mnemonics. -/
  | unknownMnemonic
  /-- An argument is no decimal, `0x` or `0b` literal. -/
  | badLiteral
  /-- The mnemonic does not take this number of arguments. -/
  | wrongCount
  /-- A literal lies outside its range. -/
  | outOfRange
deriving DecidableEq, Repr

/-- The operation of an instruction (R55). -/
def Instr.operation : Instr → Operation
  | .add _ _ _ => .add
  | .sub _ _ _ => .sub
  | .and _ _ _ => .and
  | .or _ _ _ => .or
  | .xor _ _ _ => .xor
  | .nand _ _ _ => .nand
  | .format _ _ _ => .format

/-- The `left` field of an instruction's request (R52). -/
def Instr.left : Instr → Word
  | .add l _ _ => l
  | .sub l _ _ => l
  | .and l _ _ => l
  | .or l _ _ => l
  | .xor l _ _ => l
  | .nand l _ _ => l
  | .format v _ _ => v

/-- The `right` field of an instruction's request (R52). -/
def Instr.right : Instr → Word
  | .add _ r _ => r
  | .sub _ r _ => r
  | .and _ r _ => r
  | .or _ r _ => r
  | .xor _ r _ => r
  | .nand _ r _ => r
  | .format _ g _ => g

/-- The `width_tag` field of an instruction's request (R53). -/
def Instr.widthTag : Instr → Word
  | .add _ _ t => t
  | .sub _ _ t => t
  | .and _ _ t => t
  | .or _ _ t => t
  | .xor _ _ t => t
  | .nand _ _ t => t
  | .format _ _ t => t

/-- The instruction that an operation makes of three field values. -/
def Operation.instr (op : Operation) (left right widthTag : Word) : Instr :=
  match op with
  | .add => .add left right widthTag
  | .sub => .sub left right widthTag
  | .and => .and left right widthTag
  | .or => .or left right widthTag
  | .xor => .xor left right widthTag
  | .nand => .nand left right widthTag
  | .format => .format left right widthTag

end Sys2Proof
end

