-- ==== Sys2Proof/WellFormed.lean ====
section
/-! DEFINITION. Well-formed requests (R59, R203) and assembly lines (R62). -/

namespace Sys2Proof

/-- The reserved operation code `0b111` is not used (R59). -/
def Request.opAssigned (r : Request) : Bool := r.op != 0b111#3

/-- The reserved bits are zero (R59). -/
def Request.rsvZero (r : Request) : Bool := r.rsv == 0#29

/-- A well-formed request: "well-formed requests, meaning not reserved" (R203, R59). Any `left`, `right` and `width_tag` will do
(R26): an illegal width is answered, not refused. -/
def Request.wellFormed (r : Request) : Bool := r.opAssigned && r.rsvZero

/-- An operand literal lies in `[-2^31, 2^32 - 1]` (R62). -/
def operandLiteralOk (n : Int) : Bool := decide (-2 ^ 31 ≤ n) && decide (n ≤ 2 ^ 32 - 1)

/-- A width literal lies in `[0, 2^32 - 1]` (R62). -/
def widthLiteralOk (n : Int) : Bool := decide (0 ≤ n) && decide (n ≤ 2 ^ 32 - 1)

/-- How many arguments an operation takes in a line of assembly (R61). -/
def Operation.argCount : Operation → Nat
  | .format => 2
  | .add | .sub | .and | .or | .xor | .nand => 3

/-- FORMAT takes a value and a width, every other operation two operands and a width (R61), each literal in its range (R62). -/
def AsmLine.wellFormed (a : AsmLine) : Bool :=
  match a.op, a.args with
  | .format, [v, w] => operandLiteralOk v && widthLiteralOk w
  | .format, _ => false
  | _, [l, r, w] => operandLiteralOk l && operandLiteralOk r && widthLiteralOk w
  | _, _ => false

end Sys2Proof
end

