-- ==== Sys2Proof/Decode.lean ====
section
/-! DEFINITION. Packing, decoding and encoding request words (R50 to R60), and the bytes of a request word on a byte-wide bus
(R41). -/

namespace Sys2Proof

/-- Why a request word is reserved (R59). Where both reasons hold the operation code is named (log 8). -/
inductive Reserved where
  /-- `op = 0b111`. -/
  | operationCode
  /-- `rsv` is not zero. -/
  | reservedBits
deriving DecidableEq, Repr

/-- What the decoder reads from a request word. -/
inductive Decoded where
  | instr (i : Instr)
  | reserved (why : Reserved)
deriving DecidableEq, Repr

/-- What the decoder reads from the bytes on a bus: a list that is not 16 bytes long is no request word (R60). -/
inductive BusDecoded where
  | word (d : Decoded)
  | wrongLength (n : Nat)
deriving DecidableEq, Repr

/-- The fields of a request word (R50 to R54). -/
def Request.unpack (q : ReqWord) : Request where
  left := q.extractLsb' 96 32
  right := q.extractLsb' 64 32
  widthTag := q.extractLsb' 32 32
  rsv := q.extractLsb' 3 29
  op := q.extractLsb' 0 3

/-- The request word of some fields (R50). -/
def Request.pack (r : Request) : ReqWord :=
  r.left ++ r.right ++ r.widthTag ++ r.rsv ++ r.op

/-- The operation code of an operation (R55, D3). -/
def Operation.code : Operation → BitVec 3
  | .add => 0b000
  | .sub => 0b001
  | .and => 0b010
  | .or => 0b011
  | .xor => 0b100
  | .nand => 0b101
  | .format => 0b110

/-- The operation an operation code selects (R51, R55); `0b111` selects none. -/
def Operation.ofCode (c : BitVec 3) : Option Operation :=
  if c = 0b000 then some .add
  else if c = 0b001 then some .sub
  else if c = 0b010 then some .and
  else if c = 0b011 then some .or
  else if c = 0b100 then some .xor
  else if c = 0b101 then some .nand
  else if c = 0b110 then some .format
  else none

/-- The decoder: total on every 128-bit word (R51 to R55), with the reserved-encoding check of R59 first. -/
def decode (q : ReqWord) : Decoded :=
  let r := Request.unpack q
  match Operation.ofCode r.op with
  | none => .reserved .operationCode
  | some op =>
    if r.rsv = 0 then .instr (op.instr r.left r.right r.widthTag)
    else .reserved .reservedBits

/-- The request fields of an instruction: its operation's code, and zero reserved bits (R50, R55, R64). -/
def Instr.request (i : Instr) : Request where
  left := i.left
  right := i.right
  widthTag := i.widthTag
  rsv := 0
  op := i.operation.code

/-- An instruction is well-formed when its request is (R203). The field types hold every legal value and no other, so every
instruction is. -/
def Instr.wellFormed (i : Instr) : Bool := i.request.wellFormed

/-- The encoder: the request word of an instruction (R50, R64). -/
def encode (i : Instr) : ReqWord := i.request.pack

/-- The request word whose bits are `w`, of which `nbits` are given and the rest are zero. -/
def tableWord (nbits w : Nat) : ReqWord := BitVec.ofNat 128 (w % 2 ^ nbits)

/-- The decoder as the opcode table's numbering asks for it: the block takes the request word whole (R60). -/
def decodeTableWord (nbits w : Nat) : Option Instr :=
  match decode (tableWord nbits w) with
  | .instr i => some i
  | .reserved _ => none

/-- Byte `j` of a request word, bits `8j+7 .. 8j` (R10). -/
def ReqWord.byte (q : ReqWord) (j : Fin 16) : Byte := q.extractLsb' (8 * j.val) 8

/-- A request word as the 16 bytes a byte-wide bus carries, lane 0 first, in the host's byte order (R41). -/
def serialise (o : HostByteOrder) (q : ReqWord) : List Byte :=
  (List.finRange 16).map fun lane => ReqWord.byte q (o lane)

/-- The number that a list of bytes writes, least significant byte first. -/
def bytesValue : List Byte → Nat
  | [] => 0
  | b :: bs => b.toNat + 256 * bytesValue bs

/-- The request word that 16 bytes on a byte-wide bus carry in the host's byte order; any other number of bytes is no request
word (R41, R60). -/
def deserialise (o : HostByteOrder) (bs : List Byte) : Option ReqWord :=
  if bs.length = 16 then
    some (BitVec.ofNat 128 (bytesValue ((List.finRange 16).map fun j => bs.getD (o.symm j).val 0)))
  else none

/-- The decoder on any bytes. -/
def decodeBytes (o : HostByteOrder) (bs : List Byte) : BusDecoded :=
  match deserialise o bs with
  | some q => .word (decode q)
  | none => .wrongLength bs.length

end Sys2Proof
end

