-- ==== Sys2Proof/Machine/State.lean ====
section
/-! DEFINITION. Responses, the machine's state, its reset, and the reasons a step can stop. -/

namespace Sys2Proof.Machine

/-- The five flags of one `Computation` response (R28). They are outputs, not state (R32). -/
structure FlagSet where
  zero : Bool
  negative : Bool
  overflow : Bool
  carry : Bool
  borrow : Bool
deriving DecidableEq, Repr

/-- The width-masked unsigned result and its signed reading (R30). -/
structure NumericResult where
  u : Nat
  s : Int
deriving DecidableEq, Repr

/-- The four strings of a result (R31). -/
structure FormattedResult where
  unsigned : Text
  signed : Text
  bin : Text
  hex : Text
deriving DecidableEq, Repr

/-- The causes of an `Error` response: `UnsupportedWidth` is the only one, and it records no value (R27, R180, D20). -/
inductive ErrorCause where
  | unsupportedWidth
deriving DecidableEq, Repr

/-- A response is exactly one of three kinds (R27, C4, C5). -/
inductive Response where
  | computation (flags : FlagSet) (value : NumericResult) (text : FormattedResult)
  | formatted (value : NumericResult) (text : FormattedResult) (com : Text)
  | error (cause : ErrorCause)
deriving DecidableEq, Repr

/-- A response standing on the response port, matched to its own request (D15). -/
structure Answer where
  request : Instr
  response : Response
deriving DecidableEq, Repr

/-- What stands at the block's ports between two steps. The block itself holds nothing (R20); log 1 says why the ports are
here. -/
structure State where
  /-- The requests issued and not yet answered, in the order of issue (R25, R190, R201). -/
  pending : List ReqWord
  /-- The responses outstanding on the response port, in the order they appeared (R27, R201). -/
  answered : List Answer
  /-- The MODEL's own counter: how many choices among several waiting requests were taken (R45, log 2 and 3). -/
  draws : Nat
  /-- The MODEL's own mark: what `draws` was when the oldest waiting request became the oldest (R208, log 2 and 3). -/
  oldestSince : Nat
deriving DecidableEq, Repr

/-- After reset no request is pending and no response is outstanding (R201); nothing else exists to be reset (R33, R200).
`draws` and `oldestSince` are the model's own fields (DESIGN CHOICE, log 3). -/
def State.reset : State where
  pending := []
  answered := []
  draws := 0
  oldestSince := 0

/-- The block has no fault: its one exception is a response (R180, R181), so a step never ends in a fault. -/
inductive Fault : Type where
deriving DecidableEq, Repr

/-- The reasons a step gives no meaning. -/
inductive Refusal where
  /-- Raised by `exec`'s arm of an instruction that has no meaning yet. No arm of this model raises it. Safe. -/
  | notModelled (mnemonic : String)
  /-- Raised by `step` on a reserved request word: outcome `Refused`, no response (R59, R194). Safe: the spec says that no
  claim about such a run can be made. -/
  | reservedRequest (why : Reserved)
deriving DecidableEq, Repr

end Sys2Proof.Machine
end

