-- ==== Sys2Proof/Machine/Operands.lean ====
section
/-! DEFINITION. The Width Model (R70 to R79): width constants, masking, sign interpretation and negation. -/

namespace Sys2Proof

/-- `b`, the bit count of a width (R71). -/
def Width.bits : Width → Nat
  | .w4 => 4
  | .w8 => 8
  | .w16 => 16
  | .w32 => 32

/-- `valueMask = 2^b - 1` (R71). -/
def Width.valueMask (w : Width) : Nat := 2 ^ w.bits - 1

/-- `signBit = 2^(b-1)` (R71). -/
def Width.signBit (w : Width) : Nat := 2 ^ (w.bits - 1)

/-- `maxSigned = 2^(b-1) - 1` (R71). -/
def Width.maxSigned (w : Width) : Nat := 2 ^ (w.bits - 1) - 1

/-- `minSigned = -2^(b-1)` (R71). -/
def Width.minSigned (w : Width) : Int := -2 ^ (w.bits - 1)

/-- `Width(tag)`, the width lookup (R70); `none` is `UnsupportedWidth`. The tag is read as an unsigned number (R57). -/
def Width.ofTag (tag : Word) : Option Width :=
  if tag.toNat = 4 then some .w4
  else if tag.toNat = 8 then some .w8
  else if tag.toNat = 16 then some .w16
  else if tag.toNat = 32 then some .w32
  else none

namespace Machine

/-- `mask(x, w) = x & w.valueMask` (R72), applied to every raw operand before use (R76). -/
def mask (x : Word) (w : Width) : Word := x &&& BitVec.ofNat 32 w.valueMask

/-- `toSigned(u, w)`, the two's-complement reading of a masked value (R73). -/
def toSigned (u : Nat) (w : Width) : Int :=
  if u ≤ w.maxSigned then (u : Int) else (u : Int) - 2 ^ w.bits

/-- `sign(v, w)`, bit `b - 1` of a masked value (R74). -/
def sign (v : Nat) (w : Width) : Bool := v.testBit (w.bits - 1)

/-- `neg(x, w) = mask(~x + 1, w)`, the sum taken modulo `2^32` (R75, D12). -/
def neg (x : Word) (w : Width) : Word := mask (~~~x + 1) w

/-- The pattern `bits32(n) = n mod 2^32` of an integer that a host passes as an operand (R11, R62, R206). -/
def bits32 (n : Int) : Word := BitVec.ofInt 32 n

/-- The numeric result of a masked unsigned value: both views of one bit pattern (R30, R96). -/
def numeric (u : Nat) (w : Width) : NumericResult where
  u := u
  s := toSigned u w

end Machine

end Sys2Proof
end

