-- ==== Sys2Proof/Machine/Flags.lean ====
section
/-! DEFINITION. Every flag computation of the spec (R28, R29, R92 to R95, R98, R112, R114, R131 to R133). -/

namespace Sys2Proof.Machine

/-- `zero = (u == 0)` (R94). -/
def zeroFlag (u : Nat) : Bool := u == 0

/-- `negative = (u[b-1] == 1)` (R95). -/
def negativeFlag (u : Nat) (w : Width) : Bool := u.testBit (w.bits - 1)

/-- `carry = (sum >= 2^b)` of the sum computed without wraparound (R92, R79). -/
def carryFlag (sum : Nat) (w : Width) : Bool := decide (2 ^ w.bits ≤ sum)

/-- Addition overflow (R93): the masked operands' signs agree and the result's sign differs from them. -/
def addOverflow (l r u : Nat) (w : Width) : Bool :=
  (sign l w == sign r w) && (sign u w != sign l w)

/-- Subtraction overflow (R114): the masked original operands' signs differ and the result's sign differs from the left
one's. -/
def subOverflow (l r u : Nat) (w : Width) : Bool :=
  (sign l w != sign r w) && (sign u w != sign l w)

/-- A flag set. Borrow is never set independently: it is `!carry` in every flag set (R29, R98, R112, R132). -/
def FlagSet.make (zero negative overflow carry : Bool) : FlagSet where
  zero := zero
  negative := negative
  overflow := overflow
  carry := carry
  borrow := !carry

end Sys2Proof.Machine
end

