-- ==== Sys2Proof/Machine/Formatter.lean ====
section
/-! DEFINITION. The Result Formatter's functions (R150 to R155, R157). -/

namespace Sys2Proof.Machine

/-- The character of a digit value (R151, R154; PRESUMED by the spec, G3, log 7): upper-case letters from 10. -/
def digitChar (d : Nat) : Char :=
  ['0', '1', '2', '3', '4', '5', '6', '7', '8', '9', 'A', 'B', 'C', 'D', 'E', 'F'].getD d '0'

/-- The decimal digits of `n`, most significant first; `fuel` bounds their number. -/
def decDigits : Nat → Nat → Text
  | 0, _ => []
  | fuel + 1, n =>
    if n < 10 then [digitChar n] else decDigits fuel (n / 10) ++ [digitChar (n % 10)]

/-- `Dec(n)`, the base-10 numeral without padding (R151). `n` has at most `n + 1` digits. -/
def dec (n : Nat) : Text := decDigits (n + 1) n

/-- `SDec(s)`, with a `-` before a negative number (R152). -/
def sdec (s : Int) : Text :=
  if s < 0 then '-' :: dec (-s).toNat else dec s.toNat

/-- `Bin(v, b)`: character `j` shows bit `b-1-j` (R153). -/
def binText (v b : Nat) : Text :=
  (List.range b).map fun j => if v.testBit (b - 1 - j) then '1' else '0'

/-- The number of hexadecimal digits of `b` bits, `ceil(b/4)` (R71, R154). -/
def hexDigits (b : Nat) : Nat := (b + 3) / 4

/-- `Hex(v, b)`: character `j` shows the nibble whose lowest bit is `4(k-1-j)` (R154). -/
def hexText (v b : Nat) : Text :=
  (List.range (hexDigits b)).map fun j => digitChar (v / 2 ^ (4 * (hexDigits b - 1 - j)) % 16)

/-- `Fmt(u, s, w)` (R150). -/
def fmt (value : NumericResult) (w : Width) : FormattedResult where
  unsigned := dec value.u
  signed := sdec value.s
  bin := binText value.u w.bits
  hex := hexText value.u w.bits

/-- The complement string `com` of FORMAT (R157). -/
def complementText (value : Word) (w : Width) : Text := binText (neg value w).toNat w.bits

/-- The ASCII code of a character of an output string (R155, D8; PRESUMED by the spec, G4, log 7). -/
def asciiCode (c : Char) : Byte := BitVec.ofNat 8 c.toNat

/-- An output string as bytes: one ASCII byte per character, index 0 first (R155). -/
def asciiBytes (t : Text) : List Byte := t.map asciiCode

end Sys2Proof.Machine
end

