-- ==== Sys2Proof/Machine/Ops.lean ====
section
/-! DEFINITION. The shared operations: the ports, raising the one exception, the width check, and the two computing cores. -/

namespace Sys2Proof.Machine

/-- It is the oldest waiting request's turn: since it became the oldest, as many choices were taken as `patience` allows. -/
def State.oldestDueBy (patience : Nat → Nat) (s : State) : Bool :=
  decide (s.oldestSince + patience s.oldestSince ≤ s.draws)

/-- The state after the `k`th of several waiting requests is taken. If that was the oldest, another one becomes the oldest. -/
def State.serve (s : State) (k : Nat) : State :=
  { s with
    pending := s.pending.eraseIdx k
    draws := s.draws + 1
    oldestSince := if k = 0 then s.draws + 1 else s.oldestSince }

/-- Take one waiting request off the request port, or none if none waits, in the order of service that `order` and `patience` tell:
among several, `order` chooses, except that the oldest is taken when it is its turn. -/
def State.takeRequestBy (order patience : Nat → Nat) (s : State) : Option (ReqWord × State) :=
  match s.pending with
  | [] => none
  | [q] => some (q, { s with pending := [] })
  | q :: q' :: rest =>
    let waiting := q :: q' :: rest
    let k := if s.oldestDueBy patience then 0 else order s.draws % waiting.length
    some (waiting.getD k q, s.serve k)

/-- Take one waiting request off the request port. The order of service is open (R45, D15, I7): any in which no request waits for
ever (R208), and nothing more is known of it (log 2). -/
def State.takeRequest (s : State) : Option (ReqWord × State) :=
  s.takeRequestBy Config.serviceOrder Config.patience

/-- The state with one more response, whole, on the response port (R27, R43, R205). -/
def State.answer (s : State) (i : Instr) (r : Response) : State :=
  { s with answered := s.answered ++ [Answer.mk i r] }

/-- `respond(r)`: the operation ends and its response appears (R14). -/
def respond (i : Instr) (r : Response) (s : State) : Host.Outcome State Fault Refusal :=
  .next (s.answer i r)

/-- `raise`: TAKING THE EXCEPTION. The error is the request's response; no state is saved, no mode changes and control goes
nowhere (R14, R180, R181, R185). There is no return from it (R186). -/
def raise (i : Instr) (cause : ErrorCause) (s : State) : Host.Outcome State Fault Refusal :=
  respond i (.error cause) s

/-- The width check that every operation makes first (R77): an illegal tag raises `UnsupportedWidth` and nothing else is
computed; a legal one is answered with `result` at that width. -/
def withWidth (i : Instr) (tag : Word) (result : Width → Response) (s : State) :
    Host.Outcome State Fault Refusal :=
  match Width.ofTag tag with
  | none => raise i .unsupportedWidth s
  | some w => respond i (result w) s

/-- What `AddCore` returns (R90). -/
structure AddResult where
  u : Nat
  s : Int
  zero : Bool
  negative : Bool
  carry : Bool
  overflow : Bool
deriving DecidableEq, Repr

/-- `AddCore(L, R, w)` on masked operands (R90 to R96); the sum is an unbounded one (R79, R91). -/
def addCore (l r : Word) (w : Width) : AddResult :=
  let sum := l.toNat + r.toNat
  let u := sum &&& w.valueMask
  { u := u
    s := toSigned u w
    zero := zeroFlag u
    negative := negativeFlag u w
    carry := carryFlag sum w
    overflow := addOverflow l.toNat r.toNat u w }

/-- `LogicCore(f, left, right, w)`'s `u`: `f` of the masked operands, masked again (R130). -/
def logicCore (f : Word → Word → Word) (left right : Word) (w : Width) : Nat :=
  (mask (f (mask left w) (mask right w)) w).toNat

/-- A `Computation` response: its text is `Fmt` of its own value (R27, R150). -/
def computation (flags : FlagSet) (value : NumericResult) (w : Width) : Response :=
  .computation flags value (fmt value w)

/-- The cause code of an error (R180, D21). -/
def ErrorCause.code : ErrorCause → Nat
  | .unsupportedWidth => 1

/-- A status field of a response: the cause code of an error, and 0 for no error (D21). -/
def Response.status : Response → Nat
  | .computation _ _ _ => 0
  | .formatted _ _ _ => 0
  | .error cause => cause.code

end Sys2Proof.Machine
end

