-- ==== Sys2Proof/Machine/Arithmetic.lean ====
section
/-! DEFINITION. The Arithmetic Flag Engine's ADD (R99) and the Subtraction Adapter's SUB (R117). -/

namespace Sys2Proof.Machine

/-- The response of ADD at a legal width (R99). -/
def addResponse (left right : Word) (w : Width) : Response :=
  let c := addCore (mask left w) (mask right w) w
  computation (.make c.zero c.negative c.overflow c.carry) ⟨c.u, c.s⟩ w

/-- ADD (R99). -/
def execAdd (left right widthTag : Word) (s : State) : Host.Outcome State Fault Refusal :=
  withWidth (.add left right widthTag) widthTag (addResponse left right) s

/-- The response of SUB at a legal width (R117): the delegated add on the negated right operand, its overflow discarded (R111)
and computed anew from the original operands (R114). Carry and borrow are the delegated add's, at right operand 0 too (R112, C1,
log 9). -/
def subResponse (left right : Word) (w : Width) : Response :=
  let c := addCore (mask left w) (neg right w) w
  let v := subOverflow (mask left w).toNat (mask right w).toNat c.u w
  computation (.make c.zero c.negative v c.carry) ⟨c.u, c.s⟩ w

/-- SUB (R117). -/
def execSub (left right widthTag : Word) (s : State) : Host.Outcome State Fault Refusal :=
  withWidth (.sub left right widthTag) widthTag (subResponse left right) s

end Sys2Proof.Machine
end

