-- ==== Sys2Proof/Machine/Format.lean ====
section
/-! DEFINITION. The FORMAT operation (R156, R157). -/

namespace Sys2Proof.Machine

/-- The response of FORMAT at a legal width: no flags, and the complement string (R28, R156, R157). -/
def formatResponse (value : Word) (w : Width) : Response :=
  let v := numeric (mask value w).toNat w
  .formatted v (fmt v w) (complementText value w)

/-- FORMAT (R156). The request's `right` field only tells this request from another; it is not read (R58). -/
def execFormat (value ignored widthTag : Word) (s : State) : Host.Outcome State Fault Refusal :=
  withWidth (.format value ignored widthTag) widthTag (formatResponse value) s

end Sys2Proof.Machine
end

