-- ==== Sys2Proof/Machine/Logic.lean ====
section
/-! DEFINITION. The Logical Operation Engine's AND, OR, XOR and NAND (R130 to R138). -/

namespace Sys2Proof.Machine

/-- The response of a logical operation at a legal width (R134): carry and overflow are false (R131), and borrow is therefore
true (R132, C3, log 10). -/
def logicResponse (f : Word → Word → Word) (left right : Word) (w : Width) : Response :=
  let u := logicCore f left right w
  computation (.make (zeroFlag u) (negativeFlag u w) false false) (numeric u w) w

/-- AND (R135). -/
def execAnd (left right widthTag : Word) (s : State) : Host.Outcome State Fault Refusal :=
  withWidth (.and left right widthTag) widthTag (logicResponse (fun l r => l &&& r) left right) s

/-- OR (R136). -/
def execOr (left right widthTag : Word) (s : State) : Host.Outcome State Fault Refusal :=
  withWidth (.or left right widthTag) widthTag (logicResponse (fun l r => l ||| r) left right) s

/-- XOR (R137). -/
def execXor (left right widthTag : Word) (s : State) : Host.Outcome State Fault Refusal :=
  withWidth (.xor left right widthTag) widthTag (logicResponse (fun l r => l ^^^ r) left right) s

/-- NAND (R138): a 32-bit complement, which the core masks again. -/
def execNand (left right widthTag : Word) (s : State) : Host.Outcome State Fault Refusal :=
  withWidth (.nand left right widthTag) widthTag (logicResponse (fun l r => ~~~(l &&& r)) left right) s

end Sys2Proof.Machine
end

