-- ==== Sys2Proof/Machine/Dispatch.lean ====
section
/-! DEFINITION. The dispatcher (R3, R55): one meaning per instruction. -/

namespace Sys2Proof.Machine

def exec (i : Instr) (s : State) : Host.Outcome State Fault Refusal :=
  match i with
  | .add left right widthTag => Sys2Proof.Machine.execAdd left right widthTag s
  | .sub left right widthTag => Sys2Proof.Machine.execSub left right widthTag s
  | .and left right widthTag => Sys2Proof.Machine.execAnd left right widthTag s
  | .or left right widthTag => Sys2Proof.Machine.execOr left right widthTag s
  | .xor left right widthTag => Sys2Proof.Machine.execXor left right widthTag s
  | .nand left right widthTag => Sys2Proof.Machine.execNand left right widthTag s
  | .format value ignored widthTag => Sys2Proof.Machine.execFormat value ignored widthTag s

end Sys2Proof.Machine
end

