-- ==== Sys2Proof/Machine/Step.lean ====
section
/-! DEFINITION. One step of the machine: one request becomes one outcome (R34, R35, R207). -/

namespace Sys2Proof.Machine

/-- One atomic step: take a waiting request, refuse it if it is reserved (R59, R184), else run its instruction. With no request
waiting the block does nothing (R34, log 4). -/
def step (s : State) : Host.Outcome State Fault Refusal :=
  match s.takeRequest with
  | none => .next s
  | some (q, s') =>
    match decode q with
    | .reserved why => .refused (.reservedRequest why)
    | .instr i => exec i s'

/-- `s` with the given request alone on the request port, so that the next step runs it: this stands for a host issuing it to
a block with nothing else waiting (log 4). -/
def State.withFetchWord (s : State) (nbits w : Nat) : State :=
  { s with pending := [tableWord nbits w] }

end Sys2Proof.Machine
end

