-- ==== Sys2Proof/Machine/Assembler.lean ====
section
/-! DEFINITION. The assembler: a line of text to a request word (R61 to R64). What these rules leave open of the text is fixed in
log 11. -/

namespace Sys2Proof.Machine

/-- A blank between the parts of a line (log 11). -/
def isBlank (c : Char) : Bool := c == ' ' || c == '\t'

/-- A text without blanks at its two ends. -/
def trimBlanks (t : Text) : Text := ((t.dropWhile isBlank).reverse.dropWhile isBlank).reverse

/-- A line without its comment, which starts at `;` (R61). -/
def stripComment (t : Text) : Text := t.takeWhile (· != ';')

/-- The parts of a text between its commas (R61). -/
def splitCommas : Text → List Text
  | [] => [[]]
  | c :: cs =>
    if c == ',' then [] :: splitCommas cs
    else
      match splitCommas cs with
      | [] => [[c]]
      | part :: parts => (c :: part) :: parts

/-- The value of a digit; letters of either case stand for 10 to 15 (log 11). -/
def digitValue (c : Char) : Option Nat :=
  if '0' ≤ c ∧ c ≤ '9' then some (c.toNat - 48)
  else if 'A' ≤ c ∧ c ≤ 'F' then some (c.toNat - 55)
  else if 'a' ≤ c ∧ c ≤ 'f' then some (c.toNat - 87)
  else none

/-- The number that digits of a base write after `acc`, most significant digit first. -/
def readDigits (base : Nat) : Nat → Text → Option Nat
  | acc, [] => some acc
  | acc, c :: cs =>
    match digitValue c with
    | some d => if d < base then readDigits base (base * acc + d) cs else none
    | none => none

/-- The number that one or more digits of a base write. -/
def readNat (base : Nat) (t : Text) : Option Nat :=
  if t = [] then none else readDigits base 0 t

/-- An integer literal (R62): `0x` hexadecimal, `0b` binary, or decimal with an optional leading `-`. -/
def parseLiteral (t : Text) : Option Int :=
  if t.take 2 = ['0', 'x'] then (readNat 16 (t.drop 2)).map Int.ofNat
  else if t.take 2 = ['0', 'b'] then (readNat 2 (t.drop 2)).map Int.ofNat
  else if t.take 1 = ['-'] then (readNat 10 (t.drop 1)).map fun n => -(n : Int)
  else (readNat 10 t).map Int.ofNat

/-- The literals of a list of arguments, or none if one of them is no literal. -/
def parseLiterals : List Text → Option (List Int)
  | [] => some []
  | t :: ts =>
    match parseLiteral (trimBlanks t), parseLiterals ts with
    | some n, some ns => some (n :: ns)
    | _, _ => none

/-- The lower-case mnemonic of an operation (R61). -/
def mnemonicText : Operation → Text
  | .add => ['a', 'd', 'd']
  | .sub => ['s', 'u', 'b']
  | .and => ['a', 'n', 'd']
  | .or => ['o', 'r']
  | .xor => ['x', 'o', 'r']
  | .nand => ['n', 'a', 'n', 'd']
  | .format => ['f', 'o', 'r', 'm', 'a', 't']

/-- The operation a mnemonic names; there are no pseudo-instructions (R61, R63). -/
def operationNamed (t : Text) : Option Operation :=
  [Operation.add, .sub, .and, .or, .xor, .nand, .format].find? fun op => mnemonicText op == t

/-- A line of text `mnemonic(argument, ...)`, with an optional comment (R61). -/
def parseLine (line : Text) : Except AsmError AsmLine :=
  let body := trimBlanks (stripComment line)
  match body.dropWhile (· != '(') with
  | '(' :: inside =>
    match inside.reverse with
    | ')' :: argsReversed =>
      match operationNamed (body.takeWhile (· != '(')) with
      | none => .error .unknownMnemonic
      | some op =>
        match parseLiterals (splitCommas argsReversed.reverse) with
        | none => .error .badLiteral
        | some args => .ok ⟨op, args⟩
    | _ => .error .badForm
  | _ => .error .badForm

/-- The instruction of a line's literals: operands modulo `2^32`, and FORMAT's unused field zero (R62, R64). -/
def instrOfLine (a : AsmLine) : Option Instr :=
  match a.op, a.args with
  | .format, [v, w] => some (.format (bits32 v) 0 (bits32 w))
  | op, [l, r, w] => some (op.instr (bits32 l) (bits32 r) (bits32 w))
  | _, _ => none

/-- The request word of a line (R64); a wrong number of literals is refused (R61), and a literal outside its range is refused and
not wrapped (R62, I10). -/
def assemble (a : AsmLine) : Except AsmError ReqWord :=
  if a.args.length ≠ a.op.argCount then .error .wrongCount
  else if a.wellFormed then
    match instrOfLine a with
    | some i => .ok (encode i)
    | none => .error .outOfRange
  else .error .outOfRange

/-- The request word of a line of text. -/
def assembleText (line : Text) : Except AsmError ReqWord :=
  match parseLine line with
  | .ok a => assemble a
  | .error e => .error e

end Sys2Proof.Machine
end

