-- ==== Sys2Proof/Machine/Eval.lean ====
section
/-! DEFINITION. `Eval`, the block's behaviour as one total function of a request word (R35), read from the field table without the
decoder or the state. -/

namespace Sys2Proof.Machine

/-- `Outcome ::= Respond(Response) | Refused` (R35). -/
inductive EvalOutcome where
  | respond (r : Response)
  | refused
deriving DecidableEq, Repr

/-- `Eval` (R35): the reserved-encoding check (R59), then the width check (R77), then dispatch by the operation code (R55). -/
def eval (q : ReqWord) : EvalOutcome :=
  let left : Word := q.extractLsb' 96 32
  let right : Word := q.extractLsb' 64 32
  let op : BitVec 3 := q.extractLsb' 0 3
  if op = 0b111 ∨ q.extractLsb' 3 29 ≠ 0 then .refused
  else
    match Width.ofTag (q.extractLsb' 32 32) with
    | none => .respond (.error .unsupportedWidth)
    | some w =>
      if op = 0b000 then .respond (addResponse left right w)
      else if op = 0b001 then .respond (subResponse left right w)
      else if op = 0b010 then .respond (logicResponse (fun l r => l &&& r) left right w)
      else if op = 0b011 then .respond (logicResponse (fun l r => l ||| r) left right w)
      else if op = 0b100 then .respond (logicResponse (fun l r => l ^^^ r) left right w)
      else if op = 0b101 then .respond (logicResponse (fun l r => ~~~(l &&& r)) left right w)
      else .respond (formatResponse left w)

end Sys2Proof.Machine
end

