-- ==== Sys2Proof/Machine/HostPort.lean ====
section
/-! DEFINITION. What the world outside the block can do to it between two steps (R34, R190, R200, R201). -/

namespace Sys2Proof.Machine

/-- A host issues a request (R34). If no other waits, it becomes the oldest waiting one (log 2). -/
def State.issue (s : State) (q : ReqWord) : State :=
  { s with
    pending := s.pending ++ [q]
    oldestSince := if s.pending = [] then s.draws else s.oldestSince }

/-- A host issues a request as bytes on a byte-wide bus, in the byte order it chose (R41, D16); bytes that are no request word
issue nothing (R60). -/
def State.issueBytes (s : State) (bs : List Byte) : Option State :=
  (deserialise Config.hostByteOrder bs).map s.issue

/-- A host receives the `n`th outstanding response, which leaves the response port (R34). -/
def State.collect (s : State) (n : Nat) : Option (Answer × State) :=
  s.answered[n]?.map fun a => (a, { s with answered := s.answered.eraseIdx n })

/-- The reset line: whatever was pending is dropped without a response, and no response is outstanding (R200, R201, log 12). The
model's own counters run on, so that the free choices after a reset are not those before it (log 3). -/
def State.applyReset (s : State) : State := { s with pending := [], answered := [] }

/-- What can happen next, seen from the hosts' side. -/
inductive HostEvent where
  /-- A host issues a request. -/
  | issue (q : ReqWord)
  /-- The block takes one step. -/
  | step
  /-- A host receives the `n`th outstanding response. -/
  | collect (n : Nat)
  /-- The reset line is pulled. -/
  | reset
deriving DecidableEq, Repr

/-- A history: the responses that hosts received, in order, and the state it ends in. There is none if a step refuses, or a host
asks for a response that is not there. -/
def history : List HostEvent → State → Option (List Answer × State)
  | [], s => some ([], s)
  | .issue q :: es, s => history es (s.issue q)
  | .step :: es, s =>
    match step s with
    | .next t => history es t
    | .fault _ => none
    | .refused _ => none
  | .collect n :: es, s =>
    match s.collect n with
    | none => none
    | some (a, t) => (history es t).map fun p => (a :: p.1, p.2)
  | .reset :: es, s => history es s.applyReset

/-- What can happen at the request port. -/
inductive PortEvent where
  /-- A host issues a request. -/
  | issue (q : ReqWord)
  /-- The block takes the `k`th waiting request. -/
  | serve (k : Nat)
  /-- The reset line is pulled. -/
  | reset
deriving DecidableEq, Repr

/-- The requests that wait after an event; there are none to tell if the request to be taken is not there. -/
def PortEvent.waitingAfter (waiting : List ReqWord) : PortEvent → Option (List ReqWord)
  | .issue q => some (waiting ++ [q])
  | .serve k => if k < waiting.length then some (waiting.eraseIdx k) else none
  | .reset => some []

/-- The event takes the state `s` to `t`, if `order` and `patience` tell the order of service. -/
def PortEvent.Happens (order patience : Nat → Nat) (s t : State) : PortEvent → Prop
  | .issue q => t = s.issue q
  | .serve k => ∃ q, s.pending[k]? = some q ∧ s.takeRequestBy order patience = some (q, t)
  | .reset => t = s.applyReset

/-- `n` rounds, in each of which hosts first issue some requests and the block then takes a step. -/
def rounds (issues : Nat → List ReqWord) : Nat → State → Host.Outcome State Fault Refusal
  | 0, s => .next s
  | n + 1, s =>
    match step ((issues 0).foldl State.issue s) with
    | .next t => rounds (fun k => issues (k + 1)) n t
    | .fault f => .fault f
    | .refused r => .refused r

end Sys2Proof.Machine
end

