-- ==== Sys2Proof/Safety.lean ====
section
/-! DEFINITION. What counts as a safe state and a safe run, in the terms the statements use. -/

namespace Sys2Proof.Machine

/-- Every waiting request is well-formed: the host has met its one obligation (R203). -/
def AllAnswerable (s : State) : Prop :=
  ∀ q ∈ s.pending, (Request.unpack q).wellFormed = true

/-- A run that no refusal and no fault ever ends. -/
def SafeRun (s : State) : Prop :=
  ∀ k, ∃ t, Host.Core.run Sys2Proof.core k s = .next t

/-- A numeric result is a masked value and its signed reading, both in range (R30). -/
def ValueLawful (v : NumericResult) (w : Width) : Prop :=
  v.u ≤ w.valueMask ∧ v.s = toSigned v.u w ∧ w.minSigned ≤ v.s ∧ v.s ≤ w.maxSigned

/-- What every flag set keeps, whatever the operation: borrow is the complement of carry (R29), and zero and negative tell of the
result (R94, R95, R133). -/
def FlagsLawful (f : FlagSet) (v : NumericResult) : Prop :=
  f.borrow = !f.carry ∧ f.zero = decide (v.u = 0) ∧ f.negative = decide (v.s < 0)

/-- What a response to a request must be like (R27 to R31, R150, R157, R158, R181). -/
def ResponseLawful (i : Instr) : Response → Prop
  | .computation f v x =>
    i.operation ≠ .format ∧
      ∃ w, Width.ofTag i.widthTag = some w ∧ ValueLawful v w ∧ FlagsLawful f v ∧ x = fmt v w
  | .formatted v x com =>
    i.operation = .format ∧
      ∃ w, Width.ofTag i.widthTag = some w ∧ ValueLawful v w ∧ x = fmt v w ∧
        com = binText ((2 ^ w.bits - v.u) % 2 ^ w.bits) w.bits
  | .error _ => Width.ofTag i.widthTag = none

/-- Every outstanding response is lawful for its own request. -/
def PortsLawful (s : State) : Prop :=
  ∀ a ∈ s.answered, ResponseLawful a.request a.response

/-- Every outstanding response is exactly `Eval` of its own request, as if that request had been evaluated alone (R35, R45). -/
def PortsExact (s : State) : Prop :=
  ∀ a ∈ s.answered, eval (encode a.request) = .respond a.response

end Sys2Proof.Machine
end

