-- ==== Sys2Proof/Certificates/Slice0/Obligations.lean ====
section
/-! DEFINITION. The statements for the provers. Where a statement rests on a choice of the model, or on a passage that the spec marks
as its own inference, its docstring says so. -/

open Sys2Proof Sys2Proof.Machine

/-! Decoding, encoding, the bus and the assembler -/

/-- Decode and encode agree: every instruction, with every value of every field, comes back from its request word (R50, R55). -/
def Obligations.DecodeOfEncodeIsIdentity : Prop :=
  ∀ i : Instr, i.wellFormed = true → decode (encode i) = .instr i

/-- The other direction: a request word that decodes is the encoding of what it decodes to, so no bit of it is dropped, the unused
field of FORMAT included (log 8). -/
def Obligations.EncodeOfDecodeIsIdentity : Prop :=
  ∀ (q : ReqWord) (i : Instr), decode q = .instr i → encode i = q

/-- Six request words of section 1.2 and section 2 of 95_test_vectors.md, decoded. -/
def Obligations.WordsOfTheSpecDecode : Prop :=
  decode 0x00000006000000070000000400000000 = .instr (.add 6 7 4) ∧
  decode 0x00000082000000120000000800000001 = .instr (.sub 0x82 0x12 8) ∧
  decode 0xFFFFFFFF00000F0F0000001000000002 = .instr (.and 0xFFFFFFFF 0xF0F 16) ∧
  decode 0x0000005A0000003C0000000800000005 = .instr (.nand 0x5A 0x3C 8) ∧
  decode 0x80000000000000000000002000000006 = .instr (.format 0x80000000 0 32) ∧
  decode 0x00000001000000010000004000000029 = .reserved .reservedBits

/-- R59: a request word whose operation code is `0b111` or whose reserved bits are not zero is refused, whatever its width; any other
request word is answered. -/
def Obligations.ReservedRequestsAreRefused : Prop :=
  ∀ (s : State) (q : ReqWord), s.pending = [q] →
    ((q.extractLsb' 0 3 = 0b111#3 ∨ q.extractLsb' 3 29 ≠ 0#29) →
      ∃ why, step s = .refused (.reservedRequest why)) ∧
    (¬(q.extractLsb' 0 3 = 0b111#3 ∨ q.extractLsb' 3 29 ≠ 0#29) →
      ∃ a, step s = .next { s with pending := [], answered := s.answered ++ [a] })

/-- R64: the layout of an assembled request, for every mnemonic and all literals in range, and the worked example. -/
def Obligations.AssembledRequestLayout : Prop :=
  (∀ (op : Operation) (l r w : Int), op ≠ .format → (AsmLine.mk op [l, r, w]).wellFormed = true →
    ∃ q, assemble ⟨op, [l, r, w]⟩ = .ok q ∧
      q.toNat = (l % 2 ^ 32).toNat * 2 ^ 96 + (r % 2 ^ 32).toNat * 2 ^ 64 + w.toNat * 2 ^ 32 +
        op.code.toNat) ∧
  (∀ v w : Int, (AsmLine.mk .format [v, w]).wellFormed = true →
    ∃ q, assemble ⟨.format, [v, w]⟩ = .ok q ∧
      q.toNat = (v % 2 ^ 32).toNat * 2 ^ 96 + w.toNat * 2 ^ 32 + 0b110) ∧
  (Operation.add.code = 0b000 ∧ Operation.sub.code = 0b001 ∧ Operation.and.code = 0b010 ∧
    Operation.or.code = 0b011 ∧ Operation.xor.code = 0b100 ∧ Operation.nand.code = 0b101) ∧
  assembleText ['a', 'd', 'd', '(', '0', 'b', '0', '1', '1', '0', ',', ' ',
    '0', 'b', '0', '1', '1', '1', ',', ' ', '4', ')'] = .ok 0x00000006000000070000000400000000

/-- R61, R62: the assembler takes a line exactly when it has the right number of literals and each is in its range: two for FORMAT
and three for every other operation. A call written with any other number of them is refused. A negative left literal encodes as the
pattern that is `2^32` greater. -/
def Obligations.AssemblerTakesExactlyTheRanges : Prop :=
  (∀ (op : Operation) (l r w : Int), op ≠ .format →
    ((∃ q, assemble ⟨op, [l, r, w]⟩ = .ok q) ↔
      (-2 ^ 31 ≤ l ∧ l ≤ 2 ^ 32 - 1) ∧ (-2 ^ 31 ≤ r ∧ r ≤ 2 ^ 32 - 1) ∧ (0 ≤ w ∧ w ≤ 2 ^ 32 - 1))) ∧
  (∀ v w : Int,
    ((∃ q, assemble ⟨.format, [v, w]⟩ = .ok q) ↔
      (-2 ^ 31 ≤ v ∧ v ≤ 2 ^ 32 - 1) ∧ (0 ≤ w ∧ w ≤ 2 ^ 32 - 1))) ∧
  (∀ (op : Operation) (l r w : Int), op ≠ .format → -2 ^ 31 ≤ l → l < 0 →
    assemble ⟨op, [l, r, w]⟩ = assemble ⟨op, [l + 2 ^ 32, r, w]⟩) ∧
  (∀ (op : Operation) (args : List Int), args.length ≠ (if op = .format then 2 else 3) →
    assemble ⟨op, args⟩ = .error .wrongCount ∧
    (∀ line : Text, parseLine line = .ok ⟨op, args⟩ → assembleText line = .error .wrongCount) ∧
    ∃ e, assembleText (mnemonicText op ++ ['('] ++ [',', ' '].intercalate (args.map sdec) ++ [')']) = .error e)

/-- R61, the call syntax: a request written `mnemonic(left, right, width)` or `format(value, width)` with decimal literals, with a
comment after it or none, is read back as its mnemonic and its literals. -/
def Obligations.AssemblerReadsTheCallSyntax : Prop :=
  (∀ (op : Operation) (l r w : Int) (comment : Text),
    parseLine (mnemonicText op ++ ['('] ++ sdec l ++ [',', ' '] ++ sdec r ++ [',', ' '] ++ sdec w ++
      [')', ' ', ';'] ++ comment) = .ok ⟨op, [l, r, w]⟩ ∧
    parseLine (mnemonicText op ++ ['('] ++ sdec l ++ [',', ' '] ++ sdec r ++ [',', ' '] ++ sdec w ++
      [')']) = .ok ⟨op, [l, r, w]⟩) ∧
  (∀ (v w : Int) (comment : Text),
    parseLine (mnemonicText .format ++ ['('] ++ sdec v ++ [',', ' '] ++ sdec w ++
      [')', ' ', ';'] ++ comment) = .ok ⟨.format, [v, w]⟩ ∧
    parseLine (mnemonicText .format ++ ['('] ++ sdec v ++ [',', ' '] ++ sdec w ++ [')']) =
      .ok ⟨.format, [v, w]⟩)

/-- R41, D16: whatever byte order the host chose, the 16 bytes of a request word on the bus carry that word back, and the decoder
reads from them what it reads from the word. -/
def Obligations.BusBytesCarryTheRequest : Prop :=
  ∀ (o : HostByteOrder) (q : ReqWord),
    (serialise o q).length = 16 ∧ deserialise o (serialise o q) = some q ∧
      decodeBytes o (serialise o q) = .word (decode q)

/-! The width model -/

/-- R70: the width lookup is the closed set 4, 8, 16, 32. -/
def Obligations.WidthLookupIsTheClosedSet : Prop :=
  (∀ (tag : Word) (w : Width), Width.ofTag tag = some w ↔ tag.toNat = w.bits) ∧
  (∀ tag : Word, Width.ofTag tag = none ↔
    tag.toNat ≠ 4 ∧ tag.toNat ≠ 8 ∧ tag.toNat ≠ 16 ∧ tag.toNat ≠ 32) ∧
  (Width.w4.bits = 4 ∧ Width.w8.bits = 8 ∧ Width.w16.bits = 16 ∧ Width.w32.bits = 32)

/-- R72: masking is the bitwise AND with `valueMask`, and the remainder modulo `2^b`; at W32 it changes nothing; -1 masks to `0xF` at
W4. -/
def Obligations.MaskIsRemainder : Prop :=
  (∀ (x : Word) (w : Width),
    mask x w = x &&& BitVec.ofNat 32 (2 ^ w.bits - 1) ∧ (mask x w).toNat = x.toNat % 2 ^ w.bits) ∧
  (∀ x : Word, mask x .w32 = x) ∧ mask (bits32 (-1)) .w4 = 0xF

/-- R73: the signed reading of a masked value is its two's-complement reading. -/
def Obligations.SignedReading : Prop :=
  (∀ (u : Nat) (w : Width), u ≤ 2 ^ w.bits - 1 →
    toSigned u w = (BitVec.ofNat w.bits u).toInt ∧
      toSigned u w = if u ≤ 2 ^ (w.bits - 1) - 1 then (u : Int) else (u : Int) - 2 ^ w.bits) ∧
  toSigned 13 .w4 = -3

/-- The sign bit, the half-way comparison and the signed reading agree (40_width_model.md section on the sign bit; the spec marks it
as its own inference). -/
def Obligations.SignBitTellsNegative : Prop :=
  ∀ (v : Nat) (w : Width), v < 2 ^ w.bits →
    (sign v w = true ↔ 2 ^ (w.bits - 1) ≤ v) ∧ (sign v w = true ↔ toSigned v w < 0)

/-- Two's-complement negation is `(2^b - mask) mod 2^b`; 0 and the sign bit are their own negations and no other masked value is
(the spec marks these as its own inference from R72 and R12). -/
def Obligations.NegationModuloWidth : Prop :=
  ∀ (x : Word) (w : Width),
    (neg x w).toNat = (2 ^ w.bits - x.toNat % 2 ^ w.bits) % 2 ^ w.bits ∧
      (neg x w = mask x w ↔ x.toNat % 2 ^ w.bits = 0 ∨ x.toNat % 2 ^ w.bits = 2 ^ (w.bits - 1))

/-- R76: an operation sees only the low `b` bits of its operands: operands that agree there get the same response. -/
def Obligations.BitsAboveTheWidthDoNotMatter : Prop :=
  ∀ (op : Operation) (l l' r r' t : Word) (w : Width) (s : State), Width.ofTag t = some w →
    l.toNat % 2 ^ w.bits = l'.toNat % 2 ^ w.bits → r.toNat % 2 ^ w.bits = r'.toNat % 2 ^ w.bits →
    ∃ x, exec (op.instr l r t) s =
        .next { s with answered := s.answered ++ [⟨op.instr l r t, x⟩] } ∧
      exec (op.instr l' r' t) s =
        .next { s with answered := s.answered ++ [⟨op.instr l' r' t, x⟩] }

/-! ADD -/

/-- ADD at a legal width: its next state, with every flag, the value and the text (R91 to R96, R98). The frame is in the conclusion:
one response more, and nothing else changes. -/
def Obligations.AddAnswers : Prop :=
  ∀ (l r t : Word) (w : Width) (s : State), Width.ofTag t = some w →
    let b := w.bits
    let L := l.toNat % 2 ^ b
    let R := r.toNat % 2 ^ b
    let u := (L + R) % 2 ^ b
    let v : NumericResult := ⟨u, if u < 2 ^ (b - 1) then (u : Int) else (u : Int) - 2 ^ b⟩
    exec (.add l r t) s = .next { s with answered := s.answered ++ [⟨.add l r t,
      .computation
        { zero := decide (u = 0)
          negative := u.testBit (b - 1)
          overflow := (L.testBit (b - 1) == R.testBit (b - 1)) &&
            (u.testBit (b - 1) != L.testBit (b - 1))
          carry := decide (2 ^ b ≤ L + R)
          borrow := !decide (2 ^ b ≤ L + R) }
        v (fmt v w)⟩] }

/-- Addition overflow is exact: it is set exactly when the true signed sum is out of range, and exactly when the signed result is not
that sum (41_add.md section 3; the spec marks it as its own inference). -/
def Obligations.AddOverflowIsExact : Prop :=
  ∀ (l r t : Word) (w : Width) (s : State), Width.ofTag t = some w →
    let S := toSigned (l.toNat % 2 ^ w.bits) w + toSigned (r.toNat % 2 ^ w.bits) w
    ∃ f v x, exec (.add l r t) s =
        .next { s with answered := s.answered ++ [⟨.add l r t, .computation f v x⟩] } ∧
      (f.overflow = true ↔ S < -2 ^ (w.bits - 1) ∨ 2 ^ (w.bits - 1) - 1 < S) ∧
      (f.overflow = true ↔ v.s ≠ S)

/-- The unsigned meaning of ADD's carry: it is set exactly when the result is not the sum, and then the result is the sum less `2^b`
(41_add.md section 3; the spec marks it as its own inference). -/
def Obligations.AddCarryIsUnsignedWrap : Prop :=
  ∀ (l r t : Word) (w : Width) (s : State), Width.ofTag t = some w →
    let L := l.toNat % 2 ^ w.bits
    let R := r.toNat % 2 ^ w.bits
    ∃ f v x, exec (.add l r t) s =
        .next { s with answered := s.answered ++ [⟨.add l r t, .computation f v x⟩] } ∧
      v.u < 2 ^ w.bits ∧ (f.carry = true ↔ v.u ≠ L + R) ∧ (f.carry = true → v.u + 2 ^ w.bits = L + R)

/-- Carry and overflow of ADD are independent: at every width all four combinations occur. -/
def Obligations.AddCarryAndOverflowIndependent : Prop :=
  ∀ (w : Width) (t : Word) (s : State) (carry overflow : Bool), Width.ofTag t = some w →
    ∃ l r f v x, exec (.add l r t) s =
        .next { s with answered := s.answered ++ [⟨.add l r t, .computation f v x⟩] } ∧
      f.carry = carry ∧ f.overflow = overflow

/-! SUB -/

/-- SUB at a legal width: its next state (R112, R114, R116). Carry and borrow are the delegated add's, also at right operand 0; overflow
is the subtraction rule on the masked original operands. -/
def Obligations.SubAnswers : Prop :=
  ∀ (l r t : Word) (w : Width) (s : State), Width.ofTag t = some w →
    let b := w.bits
    let L := l.toNat % 2 ^ b
    let R := r.toNat % 2 ^ b
    let N := (2 ^ b - R) % 2 ^ b
    let u := (L + N) % 2 ^ b
    let v : NumericResult := ⟨u, if u < 2 ^ (b - 1) then (u : Int) else (u : Int) - 2 ^ b⟩
    exec (.sub l r t) s = .next { s with answered := s.answered ++ [⟨.sub l r t,
      .computation
        { zero := decide (u = 0)
          negative := u.testBit (b - 1)
          overflow := (L.testBit (b - 1) != R.testBit (b - 1)) &&
            (u.testBit (b - 1) != L.testBit (b - 1))
          carry := decide (2 ^ b ≤ L + N)
          borrow := !decide (2 ^ b ≤ L + N) }
        v (fmt v w)⟩] }

/-- What SUB's borrow means: the unsigned comparison for every right operand but 0, where carry is false and borrow true (42_sub.md
section 1, conflict C1, log 9; the spec marks it as its own inference from the algorithm). -/
def Obligations.SubBorrowMeaning : Prop :=
  ∀ (l r t : Word) (w : Width) (s : State), Width.ofTag t = some w →
    let L := l.toNat % 2 ^ w.bits
    let R := r.toNat % 2 ^ w.bits
    ∃ f v x, exec (.sub l r t) s =
        .next { s with answered := s.answered ++ [⟨.sub l r t, .computation f v x⟩] } ∧
      (R ≠ 0 → f.carry = decide (R ≤ L) ∧ f.borrow = decide (L < R)) ∧
      (R = 0 → f.carry = false ∧ f.borrow = true ∧ f.overflow = false ∧ v.u = L)

/-- SUB's overflow differs from the delegated add's exactly where the masked right operand is the sign bit (42_sub.md section 1; the
spec marks it as its own inference). -/
def Obligations.SubOverflowDiffersOnlyAtSignBit : Prop :=
  ∀ (l r t : Word) (w : Width) (s : State), Width.ofTag t = some w →
    ∃ f v x, exec (.sub l r t) s =
        .next { s with answered := s.answered ++ [⟨.sub l r t, .computation f v x⟩] } ∧
      (f.overflow ≠ (addCore (mask l w) (neg r w) w).overflow ↔ r.toNat % 2 ^ w.bits = 2 ^ (w.bits - 1))

/-- Subtraction overflow is exact: it is set exactly when the true signed difference is out of range (42_sub.md section 3; the spec
marks it as its own inference). -/
def Obligations.SubOverflowIsExact : Prop :=
  ∀ (l r t : Word) (w : Width) (s : State), Width.ofTag t = some w →
    let D := toSigned (l.toNat % 2 ^ w.bits) w - toSigned (r.toNat % 2 ^ w.bits) w
    ∃ f v x, exec (.sub l r t) s =
        .next { s with answered := s.answered ++ [⟨.sub l r t, .computation f v x⟩] } ∧
      (f.overflow = true ↔ D < -2 ^ (w.bits - 1) ∨ 2 ^ (w.bits - 1) - 1 < D) ∧
      (f.overflow = true ↔ v.s ≠ D)

/-- SUB's unsigned result is the difference modulo `2^b` (42_sub.md section 3; the spec marks it as its own inference). -/
def Obligations.SubIsDifferenceModuloWidth : Prop :=
  ∀ (l r t : Word) (w : Width) (s : State), Width.ofTag t = some w →
    ∃ f v x, exec (.sub l r t) s =
        .next { s with answered := s.answered ++ [⟨.sub l r t, .computation f v x⟩] } ∧
      (v.u : Int) = ((l.toNat : Int) - r.toNat) % 2 ^ w.bits

/-- Invertibility: a host that adds `y` to `x`, and then subtracts `y` from the `u` of that response, gets `mask(x)` (42_sub.md section
3; the spec marks it as its own inference). -/
def Obligations.SubInvertsAdd : Prop :=
  ∀ (x y t : Word) (w : Width) (s : State), Width.ofTag t = some w →
    ∃ f v p f' v' p' s₁,
      exec (.add x y t) s = .next s₁ ∧
      s₁ = { s with answered := s.answered ++ [⟨.add x y t, .computation f v p⟩] } ∧
      exec (.sub (bits32 v.u) y t) s₁ =
        .next { s₁ with answered := s₁.answered ++ [⟨.sub (bits32 v.u) y t, .computation f' v' p'⟩] } ∧
      v'.u = x.toNat % 2 ^ w.bits

/-! AND, OR, XOR, NAND -/

/-- AND, OR, XOR and NAND at a legal width: their next states (R131, R132, R133). NAND's value is the complement of the masked AND
within `b` bits. -/
def Obligations.LogicalOperationsAnswer : Prop :=
  ∀ (l r t : Word) (w : Width) (s : State), Width.ofTag t = some w →
    let b := w.bits
    let L := l.toNat % 2 ^ b
    let R := r.toNat % 2 ^ b
    let value (u : Nat) : NumericResult := ⟨u, if u < 2 ^ (b - 1) then (u : Int) else (u : Int) - 2 ^ b⟩
    let result (u : Nat) : Response := .computation
      { zero := decide (u = 0)
        negative := u.testBit (b - 1)
        overflow := false
        carry := false
        borrow := true } (value u) (fmt (value u) w)
    exec (.and l r t) s = .next { s with answered := s.answered ++ [⟨.and l r t, result (L &&& R)⟩] } ∧
    exec (.or l r t) s = .next { s with answered := s.answered ++ [⟨.or l r t, result (L ||| R)⟩] } ∧
    exec (.xor l r t) s = .next { s with answered := s.answered ++ [⟨.xor l r t, result (L ^^^ R)⟩] } ∧
    exec (.nand l r t) s =
      .next { s with answered := s.answered ++ [⟨.nand l r t, result (2 ^ b - 1 - (L &&& R))⟩] }

/-- NAND is XOR of AND with `valueMask`: the two chained requests give the response that the one request gives (95_test_vectors.md
program P4, at all operands and widths). -/
def Obligations.NandIsXorOfAnd : Prop :=
  ∀ (x y t : Word) (w : Width) (s : State), Width.ofTag t = some w →
    ∃ f v p s₁ a s₂ resp,
      exec (.and x y t) s = .next s₁ ∧
      s₁ = { s with answered := s.answered ++ [⟨.and x y t, .computation f v p⟩] } ∧
      a = Instr.xor (bits32 v.u) (BitVec.ofNat 32 w.valueMask) t ∧
      exec a s₁ = .next s₂ ∧ s₂ = { s₁ with answered := s₁.answered ++ [⟨a, resp⟩] } ∧
      exec (.nand x y t) s₂ = .next { s₂ with answered := s₂.answered ++ [⟨.nand x y t, resp⟩] }

/-! FORMAT and the formatter -/

/-- FORMAT at a legal width: its next state, with the complement string (R157). -/
def Obligations.FormatAnswers : Prop :=
  ∀ (x g t : Word) (w : Width) (s : State), Width.ofTag t = some w →
    let b := w.bits
    let u := x.toNat % 2 ^ b
    let v : NumericResult := ⟨u, if u < 2 ^ (b - 1) then (u : Int) else (u : Int) - 2 ^ b⟩
    let com := binText ((2 ^ b - u) % 2 ^ b) b
    exec (.format x g t) s =
        .next { s with answered := s.answered ++ [⟨.format x g t, .formatted v (fmt v w) com⟩] } ∧
      com.length = b ∧ com = binText (mask (~~~x + 1) w).toNat b

/-- R58: FORMAT's value is the `left` field; no value of the `right` field changes the outcome; and the assembler writes it zero. -/
def Obligations.FormatIgnoresRight : Prop :=
  (∀ q : ReqWord, q.extractLsb' 0 32 = 6#32 →
    decode q = .instr (.format (q.extractLsb' 96 32) (q.extractLsb' 64 32) (q.extractLsb' 32 32))) ∧
  (∀ (x g g' t : Word) (s : State), ∃ resp,
    exec (.format x g t) s = .next { s with answered := s.answered ++ [⟨.format x g t, resp⟩] } ∧
    exec (.format x g' t) s = .next { s with answered := s.answered ++ [⟨.format x g' t, resp⟩] }) ∧
  (∀ (v w : Int) (q : ReqWord), assemble ⟨.format, [v, w]⟩ = .ok q → q.extractLsb' 64 32 = 0#32)

/-- FORMAT's complement string is the binary string of subtracting the value from zero (95_test_vectors.md section 2.5; the spec marks
it as its own inference). -/
def Obligations.ComIsBinOfZeroMinusValue : Prop :=
  ∀ (x g t : Word) (w : Width) (s : State), Width.ofTag t = some w →
    ∃ v p com f v' p',
      exec (.format x g t) s =
        .next { s with answered := s.answered ++ [⟨.format x g t, .formatted v p com⟩] } ∧
      exec (.sub 0 x t) s =
        .next { s with answered := s.answered ++ [⟨.sub 0 x t, .computation f v' p'⟩] } ∧
      com = p'.bin

/-- The decimal numeral of `n` is its base-10 digits, most significant first, with no leading zero, and `0` for zero (R151, R152;
digit order, digit characters and the numeral of zero are marked by the spec as general knowledge, log 7). -/
def Obligations.DecimalNumerals : Prop :=
  (∀ n : Nat, n ≠ 0 →
    dec n = ((Nat.digits 10 n).map fun d => Char.ofNat (48 + d)).reverse ∧ (dec n).head? ≠ some '0') ∧
  dec 0 = ['0'] ∧
  (∀ s : Int, sdec s = if s < 0 then ['-'] ++ dec s.natAbs else dec s.natAbs)

/-- R153: the binary string has exactly `b` characters, and character `j` shows bit `b-1-j`. -/
def Obligations.BinaryCharacters : Prop :=
  (∀ v b : Nat, (binText v b).length = b ∧
    ∀ j, j < b → (binText v b)[j]? = some (if v / 2 ^ (b - 1 - j) % 2 = 1 then '1' else '0')) ∧
  binText 13 4 = ['1', '1', '0', '1']

/-- The hexadecimal string has exactly `ceil(b/4)` characters, and character `j` is the upper-case digit of nibble `k-1-j` (R154; the
digit characters are marked by the spec as general knowledge, log 7). -/
def Obligations.HexCharacters : Prop :=
  (∀ v b : Nat, (hexText v b).length = (b + 3) / 4 ∧
    ∀ j, j < (b + 3) / 4 →
      let d := v / 2 ^ (4 * ((b + 3) / 4 - 1 - j)) % 16
      (hexText v b)[j]? = some (if d < 10 then Char.ofNat (48 + d) else Char.ofNat (55 + d))) ∧
  (∀ w : Width, (w.bits + 3) / 4 * 4 = w.bits) ∧
  hexText 13 4 = ['D'] ∧ hexText 0x94 8 = ['9', '4']

/-- The strings read back as the numbers they show, in the assembler's literal forms: decimal, `0b` and `0x` (44_formatter.md section
3, which the spec marks as its own inference; R62). The four strings of `fmt` are those of its value (R150), and so the text of any
instruction's response reads back as the response's own value (R160). -/
def Obligations.StringsReadBackAsNumbers : Prop :=
  (∀ n : Nat, readNat 10 (dec n) = some n) ∧
  (∀ s : Int, parseLiteral (sdec s) = some s) ∧
  (∀ v b : Nat, 0 < b → v < 2 ^ b →
    readNat 2 (binText v b) = some v ∧ readNat 16 (hexText v b) = some v ∧
    parseLiteral ('0' :: 'b' :: binText v b) = some (v : Int) ∧
    parseLiteral ('0' :: 'x' :: hexText v b) = some (v : Int)) ∧
  (∀ (v : NumericResult) (w : Width),
    fmt v w = ⟨dec v.u, sdec v.s, binText v.u w.bits, hexText v.u w.bits⟩) ∧
  (∀ (u : Nat) (w : Width), u ≤ 2 ^ w.bits - 1 →
    let x := fmt (numeric u w) w
    readNat 10 x.unsigned = some u ∧
      parseLiteral x.signed = some (if u < 2 ^ (w.bits - 1) then (u : Int) else (u : Int) - 2 ^ w.bits) ∧
      readNat 2 x.bin = some u ∧ readNat 16 x.hex = some u) ∧
  (∀ (i : Instr) (s t : State) (a : Answer), exec i s = .next t → t.answered = s.answered ++ [a] →
    match a.response with
    | .computation _ v x =>
      readNat 10 x.unsigned = some v.u ∧ parseLiteral x.signed = some v.s ∧
        readNat 2 x.bin = some v.u ∧ readNat 16 x.hex = some v.u
    | .formatted v x com =>
      readNat 10 x.unsigned = some v.u ∧ parseLiteral x.signed = some v.s ∧
        readNat 2 x.bin = some v.u ∧ readNat 16 x.hex = some v.u ∧
        readNat 2 com = some ((2 ^ com.length - v.u) % 2 ^ com.length)
    | .error _ => True)

/-- How long the strings of a result can be at each width (44_formatter.md section 3; the spec marks it as its own inference). -/
def Obligations.StringLengthBounds : Prop :=
  ∀ (u : Nat) (w : Width), u ≤ 2 ^ w.bits - 1 →
    let x := fmt (numeric u w) w
    x.bin.length = w.bits ∧ x.hex.length = w.bits / 4 ∧
      1 ≤ x.unsigned.length ∧ 1 ≤ x.signed.length ∧
      match w with
      | .w4 => x.unsigned.length ≤ 2 ∧ x.signed.length ≤ 2
      | .w8 => x.unsigned.length ≤ 3 ∧ x.signed.length ≤ 4
      | .w16 => x.unsigned.length ≤ 5 ∧ x.signed.length ≤ 6
      | .w32 => x.unsigned.length ≤ 10 ∧ x.signed.length ≤ 11

/-- Every character of every string that any instruction's response carries is one of `0`-`9`, `A`-`F` and `-`, and its byte is its
ASCII code (R155; the code values are marked by the spec as general knowledge, log 7). -/
def Obligations.OutputCharactersAreAscii : Prop :=
  (∀ (i : Instr) (s t : State) (a : Answer), exec i s = .next t → t.answered = s.answered ++ [a] →
    match a.response with
    | .computation _ _ x => ∀ c ∈ x.unsigned ++ x.signed ++ x.bin ++ x.hex,
        ('0' ≤ c ∧ c ≤ '9') ∨ ('A' ≤ c ∧ c ≤ 'F') ∨ c = '-'
    | .formatted _ x com => ∀ c ∈ x.unsigned ++ x.signed ++ x.bin ++ x.hex ++ com,
        ('0' ≤ c ∧ c ≤ '9') ∨ ('A' ≤ c ∧ c ≤ 'F') ∨ c = '-'
    | .error _ => True) ∧
  (∀ d : Nat, d < 10 → asciiCode (digitChar d) = BitVec.ofNat 8 (0x30 + d)) ∧
  (∀ d : Nat, 10 ≤ d → d < 16 → asciiCode (digitChar d) = BitVec.ofNat 8 (0x41 + (d - 10))) ∧
  asciiCode '-' = 0x2D

/-! The error -/

/-- R180, R181: an instruction answers `Error UnsupportedWidth`, with cause code 1 and nothing else, exactly when its width tag is not
4, 8, 16 or 32. -/
def Obligations.IllegalWidthIsTheOneError : Prop :=
  (∀ (i : Instr) (s : State),
    (i.widthTag.toNat ≠ 4 ∧ i.widthTag.toNat ≠ 8 ∧ i.widthTag.toNat ≠ 16 ∧ i.widthTag.toNat ≠ 32) ↔
      exec i s = .next { s with answered := s.answered ++ [⟨i, .error .unsupportedWidth⟩] }) ∧
  ErrorCause.code .unsupportedWidth = 1

/-! The machine -/

/-- Every instruction, at every operand and in every state, answers: a next state with exactly one response more, matched to the
instruction. Nothing else changes: no other response, no waiting request. ADD to NAND answer a `Computation` and FORMAT a `Formatted`
at a legal width (R27), and all an `Error` at any other. -/
def Obligations.EveryInstructionAnswersOnce : Prop :=
  ∀ (i : Instr) (s : State), ∃ r,
    exec i s = .next { s with answered := s.answered ++ [⟨i, r⟩] } ∧
      match r with
      | .computation _ _ _ => i.operation ≠ .format ∧ Width.ofTag i.widthTag ≠ none
      | .formatted _ _ _ => i.operation = .format ∧ Width.ofTag i.widthTag ≠ none
      | .error _ => Width.ofTag i.widthTag = none

/-- A step runs the instruction that the taken request word decodes to, at the state without that request; a request that waits alone
is the one taken. -/
def Obligations.StepRunsTheDecodedInstruction : Prop :=
  (∀ (s s' : State) (q : ReqWord) (i : Instr), s.takeRequest = some (q, s') → decode q = .instr i →
    i.wellFormed = true → step s = exec i s') ∧
  (∀ (s : State) (q : ReqWord), s.pending = [q] → s.takeRequest = some (q, { s with pending := [] }))

/-- Whatever the free choice of serving order, a step takes exactly one of the waiting requests, and leaves the others and the
responses alone (the model's form of R45 and R190, log 2). -/
def Obligations.ExactlyOneRequestIsTaken : Prop :=
  ∀ s : State, s.pending ≠ [] →
    ∃ q s', s.takeRequest = some (q, s') ∧ s.pending.Perm (q :: s'.pending) ∧ s'.answered = s.answered

/-- With no request waiting, a step changes nothing (the model's choice, log 4). -/
def Obligations.IdleStepChangesNothing : Prop :=
  ∀ s : State, s.pending = [] → step s = .next s

/-- Refinement of `Eval` (R35): a step gives the request it takes exactly the outcome that `Eval` gives it. -/
def Obligations.StepRefinesEval : Prop :=
  ∀ (s s' : State) (q : ReqWord), s.takeRequest = some (q, s') →
    match eval q with
    | .respond r => ∃ i, decode q = .instr i ∧
        step s = .next { s' with answered := s'.answered ++ [⟨i, r⟩] }
    | .refused => ∃ why, decode q = .reserved why ∧ step s = .refused (.reservedRequest why)

/-- A request's outcome depends on its own fields alone: two states that share nothing but the one waiting request give it the same
response, or both refuse it (R35, R45). -/
def Obligations.OutcomeDependsOnTheRequestAlone : Prop :=
  ∀ (s s' : State) (q : ReqWord), s.pending = [q] → s'.pending = [q] →
    (∃ a, step s = .next { s with pending := [], answered := s.answered ++ [a] } ∧
      step s' = .next { s' with pending := [], answered := s'.answered ++ [a] }) ∨
    (∃ why, step s = .refused why ∧ step s' = .refused why)

/-- Every step keeps the ports lawful, whatever state it starts from: in every flag set borrow is the complement of carry (R29), every
value is masked and its signed reading in range (R30), and every text is the text of its own value. -/
def Obligations.StepKeepsPortsLawful : Prop :=
  ∀ s t : State, PortsLawful s → step s = .next t → PortsLawful t

/-- Every step keeps the ports exact: each outstanding response is `Eval` of its own request, as if that request had been evaluated
alone (R35, R45). -/
def Obligations.StepKeepsPortsExact : Prop :=
  ∀ s t : State, PortsExact s → step s = .next t → PortsExact t

/-- Right after reset no request is pending and no response is outstanding, and both invariants hold: at `State.reset`, and wherever the
reset line is pulled (R201). -/
def Obligations.ResetEstablishesThePorts : Prop :=
  (State.reset.pending = [] ∧ State.reset.answered = [] ∧ PortsLawful .reset ∧ PortsExact .reset) ∧
  ∀ s : State, s.applyReset.pending = [] ∧ s.applyReset.answered = [] ∧
    PortsLawful s.applyReset ∧ PortsExact s.applyReset

/-- The first request after reset gets exactly the outcome that `Eval` gives it, whatever was in flight before (R200, R201). -/
def Obligations.FirstRequestAfterReset : Prop :=
  ∀ (s : State) (q : ReqWord),
    match eval q with
    | .respond r => ∃ t i, step (s.applyReset.issue q) = .next t ∧ decode q = .instr i ∧
        t.pending = [] ∧ t.answered = [⟨i, r⟩]
    | .refused => ∃ why, step (s.applyReset.issue q) = .refused (.reservedRequest why)

/-- Progress: if every waiting request is well-formed, then in as many steps as there are requests each has been answered exactly
once, with the response that `Eval` gives it, whatever the order of service; and no earlier response is touched (R208, R45). -/
def Obligations.EveryRequestIsAnswered : Prop :=
  ∀ s : State, AllAnswerable s →
    ∃ t new, Host.Core.run Sys2Proof.core s.pending.length s = .next t ∧ t.pending = [] ∧
      t.answered = s.answered ++ new ∧ (new.map fun a => encode a.request).Perm s.pending ∧
      ∀ a ∈ new, eval (encode a.request) = .respond a.response

/-- No request waits for ever: however many well-formed requests hosts go on issuing, and whatever the order of service, there is a round
by which every request that waited at first has been answered, each with the response that `Eval` gives it (R208). -/
def Obligations.NoRequestWaitsForEver : Prop :=
  ∀ (issues : Nat → List ReqWord) (s : State), AllAnswerable s →
    (∀ k, ∀ q ∈ issues k, (Request.unpack q).wellFormed = true) →
    ∃ n t new, rounds issues n s = .next t ∧ t.answered = s.answered ++ new ∧
      s.pending.Subperm (new.map fun a => encode a.request) ∧
      ∀ a ∈ new, eval (encode a.request) = .respond a.response

/-- No order of service is promised (R45): whatever happens at the request port, event by event and for ever, is possible for some order
and patience, as long as no request waits for ever (R208): whenever a request waits, the oldest is later taken or dropped by reset.
The block's own order and patience are two values of which nothing is known (the model's form of the open order, log 2). -/
def Obligations.EveryFairOrderOfServiceIsPossible : Prop :=
  (∀ s : State, s.takeRequest = s.takeRequestBy Config.serviceOrder Config.patience) ∧
  ∀ (s : State) (events : Nat → PortEvent) (waiting : Nat → List ReqWord), waiting 0 = s.pending →
    (∀ n, (events n).waitingAfter (waiting n) = some (waiting (n + 1))) →
    (∀ n, waiting n ≠ [] → ∃ m, n ≤ m ∧ (events m = .serve 0 ∨ events m = .reset)) →
    ∃ (order patience : Nat → Nat) (states : Nat → State), states 0 = s ∧
      ∀ n, (states n).pending = waiting n ∧ (events n).Happens order patience (states n) (states (n + 1))

/-- The order of issue and of service does not matter: the same requests in any order get the same responses (R45). -/
def Obligations.OrderOfRequestsDoesNotMatter : Prop :=
  ∀ s s' : State, AllAnswerable s → s.pending.Perm s'.pending →
    ∃ t t' new new', Host.Core.run Sys2Proof.core s.pending.length s = .next t ∧
      Host.Core.run Sys2Proof.core s'.pending.length s' = .next t' ∧
      t.answered = s.answered ++ new ∧ t'.answered = s'.answered ++ new' ∧ new.Perm new'

/-- Whatever any number of hosts and the reset line do, in whatever order, from reset on: every response that a host receives is
exactly what `Eval` gives its own request, and that request was issued (R35, R45, R190). A pull of the reset line cuts the history in
two: what is received after it answers requests issued after it (R201). -/
def Obligations.ReceivedResponsesAreEval : Prop :=
  ∀ (es : List HostEvent) (got : List Answer) (t : State), history es .reset = some (got, t) →
    (∀ a ∈ got, eval (encode a.request) = .respond a.response ∧ .issue (encode a.request) ∈ es) ∧
      (∀ es₁ es₂, es = es₁ ++ .reset :: es₂ → ∃ got₁ s₁ got₂,
        history es₁ .reset = some (got₁, s₁) ∧ history es₂ s₁.applyReset = some (got₂, t) ∧
          got = got₁ ++ got₂ ∧ ∀ a ∈ got₂, .issue (encode a.request) ∈ es₂)

/-- A run is never ended: from a state whose waiting requests are all well-formed, no number of steps ends in a refusal or a fault
(R182, R208). -/
def Obligations.WellFormedRequestsNeverStopTheBlock : Prop :=
  ∀ s : State, AllAnswerable s → SafeRun s

/-- Chaining: at one width, a host may pass on either the `u` or the `s` of a result, as left or as right operand; the responses are the
same (70_reset_and_hazards.md section 3; the spec marks it as its own inference). -/
def Obligations.ChainingThroughUnsignedOrSigned : Prop :=
  ∀ (op : Operation) (u : Nat) (y t : Word) (w : Width) (s : State), Width.ofTag t = some w →
    u ≤ 2 ^ w.bits - 1 →
    (∃ r, exec (op.instr (bits32 u) y t) s =
        .next { s with answered := s.answered ++ [⟨op.instr (bits32 u) y t, r⟩] } ∧
      exec (op.instr (bits32 (toSigned u w)) y t) s =
        .next { s with answered := s.answered ++ [⟨op.instr (bits32 (toSigned u w)) y t, r⟩] }) ∧
    (∃ r, exec (op.instr y (bits32 u) t) s =
        .next { s with answered := s.answered ++ [⟨op.instr y (bits32 u) t, r⟩] } ∧
      exec (op.instr y (bits32 (toSigned u w)) t) s =
        .next { s with answered := s.answered ++ [⟨op.instr y (bits32 (toSigned u w)) t, r⟩] })
end

