-- ==== Sys2Proof/Laws/Formatter.lean ====
section
/-! SUPPORT. The small lemmas of the formatter's functions. -/

namespace Sys2Proof.Machine

/-- Enough fuel gives the same digits. -/
theorem decDigits_fuel : ∀ (f g n : Nat), n < f → n < g → decDigits f n = decDigits g n
  | f + 1, g + 1, n, hf, hg => by
    simp only [decDigits]
    split
    · rfl
    · rw [decDigits_fuel f g (n / 10) (by omega) (by omega)]

/-- The recursion of the decimal numeral, without the fuel. -/
theorem dec_eq (n : Nat) :
    dec n = if n < 10 then [digitChar n] else dec (n / 10) ++ [digitChar (n % 10)] := by
  rw [dec, decDigits]
  split
  · rfl
  · rw [dec, decDigits_fuel n (n / 10 + 1) (n / 10) (by omega) (by omega)]

@[simp] theorem binText_length (v b : Nat) : (binText v b).length = b := by
  simp [binText]

@[simp] theorem hexText_length (v b : Nat) : (hexText v b).length = hexDigits b := by
  simp [hexText]

variable (v : NumericResult) (w : Width)

@[simp] theorem fmt_unsigned : (fmt v w).unsigned = dec v.u := rfl
@[simp] theorem fmt_signed : (fmt v w).signed = sdec v.s := rfl
@[simp] theorem fmt_bin : (fmt v w).bin = binText v.u w.bits := rfl
@[simp] theorem fmt_hex : (fmt v w).hex = hexText v.u w.bits := rfl

end Sys2Proof.Machine
end

