-- ==== Sys2Proof/Laws/State.lean ====
section
/-! SUPPORT. One lemma per field per update of State, so that no proof unfolds a record update. -/

namespace Sys2Proof.Machine

variable (s : State) (i : Instr) (r : Response) (q : ReqWord) (nbits n : Nat)

@[simp] theorem State.reset_pending : State.reset.pending = [] := rfl
@[simp] theorem State.reset_answered : State.reset.answered = [] := rfl

@[simp] theorem State.answer_pending : (s.answer i r).pending = s.pending := rfl
@[simp] theorem State.answer_answered : (s.answer i r).answered = s.answered ++ [⟨i, r⟩] := rfl
@[simp] theorem State.answer_draws : (s.answer i r).draws = s.draws := rfl
@[simp] theorem State.answer_oldestSince : (s.answer i r).oldestSince = s.oldestSince := rfl

@[simp] theorem State.issue_pending : (s.issue q).pending = s.pending ++ [q] := rfl
@[simp] theorem State.issue_answered : (s.issue q).answered = s.answered := rfl
@[simp] theorem State.issue_draws : (s.issue q).draws = s.draws := rfl
@[simp] theorem State.issue_oldestSince :
    (s.issue q).oldestSince = if s.pending = [] then s.draws else s.oldestSince := rfl

@[simp] theorem State.serve_pending : (s.serve n).pending = s.pending.eraseIdx n := rfl
@[simp] theorem State.serve_answered : (s.serve n).answered = s.answered := rfl
@[simp] theorem State.serve_draws : (s.serve n).draws = s.draws + 1 := rfl
@[simp] theorem State.serve_oldestSince :
    (s.serve n).oldestSince = if n = 0 then s.draws + 1 else s.oldestSince := rfl

@[simp] theorem State.withFetchWord_pending :
    (s.withFetchWord nbits n).pending = [tableWord nbits n] := rfl
@[simp] theorem State.withFetchWord_answered : (s.withFetchWord nbits n).answered = s.answered := rfl
@[simp] theorem State.withFetchWord_draws : (s.withFetchWord nbits n).draws = s.draws := rfl
@[simp] theorem State.withFetchWord_oldestSince :
    (s.withFetchWord nbits n).oldestSince = s.oldestSince := rfl

@[simp] theorem State.applyReset_pending : s.applyReset.pending = [] := rfl
@[simp] theorem State.applyReset_answered : s.applyReset.answered = [] := rfl
@[simp] theorem State.applyReset_draws : s.applyReset.draws = s.draws := rfl
@[simp] theorem State.applyReset_oldestSince : s.applyReset.oldestSince = s.oldestSince := rfl

end Sys2Proof.Machine
end

