-- ==== Sys2Proof/Laws/Width.lean ====
section
/-! SUPPORT. The small lemmas of the width model. -/

namespace Sys2Proof

/-- The bit count of a width is one of the four. -/
theorem Width.bits_cases (w : Width) : w.bits = 4 ∨ w.bits = 8 ∨ w.bits = 16 ∨ w.bits = 32 := by
  cases w <;> simp [Width.bits]

theorem Width.bits_pos (w : Width) : 0 < w.bits := by
  cases w <;> decide

theorem Width.bits_le (w : Width) : w.bits ≤ 32 := by
  cases w <;> decide

/-- `2^b` is twice the sign bit's weight. -/
theorem Width.two_mul_signBit (w : Width) : 2 * w.signBit = 2 ^ w.bits := by
  cases w <;> decide

theorem Width.valueMask_lt (w : Width) : w.valueMask < 2 ^ 32 := by
  cases w <;> decide

/-- Masking with `valueMask` is the remainder modulo `2^b`, on unbounded numbers. -/
theorem Width.and_valueMask (w : Width) (n : Nat) : n &&& w.valueMask = n % 2 ^ w.bits :=
  Nat.and_two_pow_sub_one_eq_mod n w.bits

namespace Machine

/-- A masked pattern as a number. -/
theorem mask_toNat (x : Word) (w : Width) : (mask x w).toNat = x.toNat % 2 ^ w.bits := by
  rw [mask, BitVec.toNat_and, BitVec.toNat_ofNat, Nat.mod_eq_of_lt w.valueMask_lt, w.and_valueMask]

/-- A masked pattern fits its width. -/
theorem mask_toNat_lt (x : Word) (w : Width) : (mask x w).toNat < 2 ^ w.bits := by
  rw [mask_toNat]
  exact Nat.mod_lt _ (Nat.two_pow_pos _)

/-- The sign bit of a masked value tells whether it reaches the sign bit's weight. -/
theorem sign_eq_decide (v : Nat) (w : Width) (h : v < 2 ^ w.bits) : sign v w = decide (w.signBit ≤ v) := by
  have h2 := w.two_mul_signBit
  rw [sign, Nat.testBit_eq_decide_div_mod_eq, Width.signBit]
  rw [Width.signBit] at h2
  have hp : 0 < 2 ^ (w.bits - 1) := Nat.two_pow_pos _
  rcases Nat.lt_or_ge v (2 ^ (w.bits - 1)) with hv | hv
  · simp [Nat.div_eq_of_lt hv, hv]
  · have : v / 2 ^ (w.bits - 1) = 1 := by
      rw [Nat.div_eq_iff hp]
      omega
    simp [this, hv]

/-- Below half the range a masked value reads as itself. -/
theorem toSigned_of_lt {u : Nat} {w : Width} (h : u < w.signBit) : toSigned u w = u := by
  rw [toSigned, if_pos]
  have : w.maxSigned = w.signBit - 1 := rfl
  omega

/-- From half the range on it reads as itself less `2^b`. -/
theorem toSigned_of_ge {u : Nat} {w : Width} (h : w.signBit ≤ u) : toSigned u w = (u : Int) - 2 ^ w.bits := by
  rw [toSigned, if_neg]
  have : w.maxSigned = w.signBit - 1 := rfl
  have : 0 < w.signBit := Nat.two_pow_pos _
  omega

@[simp] theorem numeric_u (u : Nat) (w : Width) : (numeric u w).u = u := rfl
@[simp] theorem numeric_s (u : Nat) (w : Width) : (numeric u w).s = toSigned u w := rfl

end Machine

end Sys2Proof
end

