-- ==== Sys2Proof/Laws/Ops.lean ====
section
/-! SUPPORT. What each shared operation can do, said once. -/

namespace Sys2Proof.Machine

/-- Taking the exception always answers, with the error and nothing else. -/
theorem raise_eq (i : Instr) (c : ErrorCause) (s : State) : raise i c s = .next (s.answer i (.error c)) := rfl

/-- The width check either raises or answers the result at the tag's width. -/
theorem withWidth_cases (i : Instr) (tag : Word) (f : Width → Response) (s : State) :
    (Width.ofTag tag = none ∧ withWidth i tag f s = .next (s.answer i (.error .unsupportedWidth))) ∨
      ∃ w, Width.ofTag tag = some w ∧ withWidth i tag f s = .next (s.answer i (f w)) := by
  unfold withWidth
  cases h : Width.ofTag tag with
  | none => exact .inl ⟨rfl, rfl⟩
  | some w => exact .inr ⟨w, rfl, rfl⟩

/-- At a legal tag the width check passes. -/
theorem withWidth_some {tag : Word} {w : Width} (h : Width.ofTag tag = some w) (i : Instr)
    (f : Width → Response) (s : State) : withWidth i tag f s = .next (s.answer i (f w)) := by
  simp only [withWidth, h, respond]

/-- At an illegal tag the width check raises. -/
theorem withWidth_none {tag : Word} (h : Width.ofTag tag = none) (i : Instr)
    (f : Width → Response) (s : State) :
    withWidth i tag f s = .next (s.answer i (.error .unsupportedWidth)) := by
  simp only [withWidth, h, raise_eq]

/-- `AddCore` in plain arithmetic. -/
theorem addCore_eq (l r : Word) (w : Width) :
    addCore l r w =
      { u := (l.toNat + r.toNat) % 2 ^ w.bits
        s := toSigned ((l.toNat + r.toNat) % 2 ^ w.bits) w
        zero := zeroFlag ((l.toNat + r.toNat) % 2 ^ w.bits)
        negative := negativeFlag ((l.toNat + r.toNat) % 2 ^ w.bits) w
        carry := carryFlag (l.toNat + r.toNat) w
        overflow := addOverflow l.toNat r.toNat ((l.toNat + r.toNat) % 2 ^ w.bits) w } := by
  simp only [addCore, w.and_valueMask]

/-- The logical core's result is `f` of the masked operands, modulo `2^b`. -/
theorem logicCore_eq (f : Word → Word → Word) (l r : Word) (w : Width) :
    logicCore f l r w = (f (mask l w) (mask r w)).toNat % 2 ^ w.bits := by
  rw [logicCore, mask_toNat]

/-- Taking a request in a given order of service: none waits, or exactly one waits and is taken, or the `k`th of several is taken,
where `k` is 0 when it is the oldest's turn, and else what the order chooses. -/
theorem takeRequestBy_cases (order patience : Nat → Nat) (s : State) :
    (s.pending = [] ∧ s.takeRequestBy order patience = none) ∨
      (∃ q, s.pending = [q] ∧ s.takeRequestBy order patience = some (q, { s with pending := [] })) ∨
        ∃ k q, 1 < s.pending.length ∧ s.pending[k]? = some q ∧
          k = (if s.oldestDueBy patience then 0 else order s.draws % s.pending.length) ∧
          s.takeRequestBy order patience = some (q, s.serve k) := by
  unfold State.takeRequestBy
  match h : s.pending with
  | [] => exact .inl ⟨rfl, rfl⟩
  | [q] => exact .inr (.inl ⟨q, rfl, rfl⟩)
  | q :: q' :: rest =>
    refine .inr (.inr ⟨_, _, by simp, ?_, rfl, rfl⟩)
    have hk : (if s.oldestDueBy patience then 0 else order s.draws % (q :: q' :: rest).length) <
        (q :: q' :: rest).length := by
      split
      · simp
      · exact Nat.mod_lt _ (by simp)
    rw [List.getElem?_eq_getElem hk, List.getD_eq_getElem?_getD, List.getElem?_eq_getElem hk, Option.getD_some]

/-- Taking a request: none waits, or exactly one waits and is taken, or one of several is taken: the oldest when it is its turn,
and else any one. -/
theorem takeRequest_cases (s : State) :
    (s.pending = [] ∧ s.takeRequest = none) ∨
      (∃ q, s.pending = [q] ∧ s.takeRequest = some (q, { s with pending := [] })) ∨
        ∃ k q, 1 < s.pending.length ∧ s.pending[k]? = some q ∧ s.takeRequest = some (q, s.serve k) ∧
          (s.oldestDueBy Config.patience = true → k = 0) := by
  rcases takeRequestBy_cases Config.serviceOrder Config.patience s with h | h | ⟨k, q, hl, hq, hk, ht⟩
  · exact .inl h
  · exact .inr (.inl h)
  · exact .inr (.inr ⟨k, q, hl, hq, ht, fun hd => by rw [hk, if_pos hd]⟩)

end Sys2Proof.Machine
end

