-- ==== Sys2Proof/Laws/PerInstr.lean ====
section
/-! SUPPORT. Facts about every instruction as syntax, one lemma per constructor. -/

namespace Sys2Proof.Laws

/-- The fields of an instruction's request stand where R50 puts them, its reserved bits are zero, and its operation code selects
its own operation. -/
def FieldsPlaced.Statement (i : Instr) : Prop :=
  Request.unpack (encode i) = i.request ∧ i.request.rsv = 0 ∧
    Operation.ofCode i.request.op = some i.operation ∧ i.operation.instr i.left i.right i.widthTag = i

/-- Unpacking a packed request gives its fields back. -/
theorem unpack_pack (r : Request) : Request.unpack r.pack = r := by
  obtain ⟨l, r, t, v, o⟩ := r
  simp only [Request.unpack, Request.pack, Request.mk.injEq]
  refine ⟨?_, ?_, ?_, ?_, ?_⟩ <;>
    refine BitVec.eq_of_getLsbD_eq fun k hk => ?_ <;>
    simp only [BitVec.getLsbD_extractLsb', BitVec.getLsbD_append, hk, decide_true, Bool.true_and] <;>
    split_ifs <;>
    first
    | omega
    | (congr 1; omega)

theorem FieldsPlaced.add (l r t : Word) : FieldsPlaced.Statement (.add l r t) :=
  ⟨unpack_pack _, rfl, rfl, rfl⟩

theorem FieldsPlaced.sub (l r t : Word) : FieldsPlaced.Statement (.sub l r t) :=
  ⟨unpack_pack _, rfl, rfl, rfl⟩

theorem FieldsPlaced.and (l r t : Word) : FieldsPlaced.Statement (.and l r t) :=
  ⟨unpack_pack _, rfl, rfl, rfl⟩

theorem FieldsPlaced.or (l r t : Word) : FieldsPlaced.Statement (.or l r t) :=
  ⟨unpack_pack _, rfl, rfl, rfl⟩

theorem FieldsPlaced.xor (l r t : Word) : FieldsPlaced.Statement (.xor l r t) :=
  ⟨unpack_pack _, rfl, rfl, rfl⟩

theorem FieldsPlaced.nand (l r t : Word) : FieldsPlaced.Statement (.nand l r t) :=
  ⟨unpack_pack _, rfl, rfl, rfl⟩

theorem FieldsPlaced.format (l r t : Word) : FieldsPlaced.Statement (.format l r t) :=
  ⟨unpack_pack _, rfl, rfl, rfl⟩

end Sys2Proof.Laws
end

