-- ==== Sys2Proof/Laws/Step.lean ====
section
/-! SUPPORT. What a step and the hosts' actions can do, said once. -/

namespace Sys2Proof.Machine

/-- Everything a step can do: nothing, refuse the request it takes, or run its instruction. -/
theorem step_cases (s : State) :
    (s.takeRequest = none ∧ step s = .next s) ∨
      (∃ q s' why, s.takeRequest = some (q, s') ∧ decode q = .reserved why ∧
        step s = .refused (.reservedRequest why)) ∨
        ∃ q s' i, s.takeRequest = some (q, s') ∧ decode q = .instr i ∧ step s = exec i s' := by
  unfold step
  cases ht : s.takeRequest with
  | none => exact .inl ⟨rfl, rfl⟩
  | some p =>
    obtain ⟨q, s'⟩ := p
    cases hd : decode q with
    | reserved why => exact .inr (.inl ⟨q, s', why, rfl, hd, by simp only [hd]⟩)
    | instr i => exact .inr (.inr ⟨q, s', i, rfl, hd, by simp only [hd]⟩)

/-- Receiving a response takes it off the port and leaves the waiting requests. -/
theorem collect_eq_some {s t : State} {n : Nat} {a : Answer} (h : s.collect n = some (a, t)) :
    s.answered[n]? = some a ∧ t = { s with answered := s.answered.eraseIdx n } := by
  obtain ⟨a', ha, he⟩ := Option.map_eq_some_iff.1 h
  cases he
  exact ⟨ha, rfl⟩

end Sys2Proof.Machine
end

