-- ==== Sys2Proof/Tests/Slice0.lean ====
section
/-! SUPPORT. Tests: expected values are those of `spec/` (mostly the tables of 95_test_vectors.md), and, for each statement that has
hypotheses, a theorem `test_hyp_<statement>` with a concrete state and operands that meet them. -/

namespace Sys2Proof.Tests

open Sys2Proof Sys2Proof.Machine

/-- A state in which one request waits alone. -/
def waiting (q : ReqWord) : State := ⟨[q], [], 0, 0⟩

/-- The last response on the port after a step. -/
def responseOf : Host.Outcome State Fault Refusal → Option Response
  | .next t => t.answered.getLast?.map Answer.response
  | .fault _ => none
  | .refused _ => none

/-- The refusal a step ends in. -/
def refusalOf : Host.Outcome State Fault Refusal → Option Refusal
  | .refused r => some r
  | .next _ => none
  | .fault _ => none

/-- The flags of a response in the order Z N C B V of 95_test_vectors.md. -/
def zncbv : Option Response → List Bool
  | some (.computation f _ _) => [f.zero, f.negative, f.carry, f.borrow, f.overflow]
  | _ => []

/-- The numeric value of a response. -/
def valueOf : Option Response → Option NumericResult
  | some (.computation _ v _) => some v
  | some (.formatted v _ _) => some v
  | _ => none

/-! WellFormed: an ill-formed term for each check (R59, R62) -/

theorem test_wf_op_reserved : (Request.mk 1 1 8 0 0b111).wellFormed = false := by decide
theorem test_wf_rsv_not_zero : (Request.mk 1 1 8 1 0b000).wellFormed = false := by decide
theorem test_wf_request : (Request.mk 1 1 3 0 0b110).wellFormed = true := by decide
theorem test_wf_operand_too_low : (AsmLine.mk .add [-2147483649, 0, 4]).wellFormed = false := by decide
theorem test_wf_operand_too_high : (AsmLine.mk .sub [0, 4294967296, 4]).wellFormed = false := by decide
theorem test_wf_width_negative : (AsmLine.mk .xor [0, 0, -1]).wellFormed = false := by decide
theorem test_wf_width_too_high : (AsmLine.mk .format [0, 4294967296]).wellFormed = false := by decide
theorem test_wf_argument_count : (AsmLine.mk .format [0, 0, 4]).wellFormed = false := by decide
theorem test_wf_line : (AsmLine.mk .nand [-2147483648, 4294967295, 0]).wellFormed = true := by decide

/-! Decode: one word written out from R50 and R55 for each constructor; reserved words -/

theorem test_decode_add : decode 0x0000000F_00000001_00000004_00000000 = .instr (.add 0xF 1 4) := by decide
theorem test_decode_sub : decode 0x00000000_80000000_00000020_00000001 = .instr (.sub 0 0x80000000 32) := by decide
theorem test_decode_and : decode 0xFFFFFFFF_00000F0F_00000010_00000002 = .instr (.and 0xFFFFFFFF 0xF0F 16) := by
  decide
theorem test_decode_or : decode 0x0000005A_0000003C_00000008_00000003 = .instr (.or 0x5A 0x3C 8) := by decide
theorem test_decode_xor : decode 0x00000094_000000FF_00000008_00000004 = .instr (.xor 0x94 0xFF 8) := by decide
theorem test_decode_nand : decode 0x0000000C_0000000A_00000004_00000005 = .instr (.nand 0xC 0xA 4) := by decide
theorem test_decode_format : decode 0xFFFFFFFF_12345678_00000008_00000006 =
    .instr (.format 0xFFFFFFFF 0x12345678 8) := by decide
theorem test_decode_reserved_op : decode 0x00000001_00000001_00000003_00000007 = .reserved .operationCode := by
  decide
theorem test_decode_reserved_bit_3 : decode 0x00000001_00000001_00000008_00000008 = .reserved .reservedBits := by
  decide
theorem test_decode_reserved_bit_31 : decode 0x00000001_00000001_00000004_80000006 = .reserved .reservedBits := by
  decide

/-- Row `sub` of the opcode table, its fields zero. -/
theorem test_decodeTableWord : decodeTableWord 128 1 = some (.sub 0 0 0) := by decide
theorem test_decodeTableWord_short : decodeTableWord 8 0x106 = some (.format 0 0 0) := by decide

/-- P1 step 1's request on a bus that carries the high byte first: lane 0 carries byte 15 (R41, D16). -/
theorem test_bus_high_byte_first :
    decodeBytes Fin.revPerm [0, 0, 0, 6, 0, 0, 0, 7, 0, 0, 0, 4, 0, 0, 0, 0] = .word (.instr (.add 6 7 4)) := by
  decide
theorem test_bus_wrong_length : decodeBytes Fin.revPerm [0, 0, 0] = .wrongLength 3 := by decide

/-! The width constants of R71's table -/

theorem test_width_constants :
    [Width.w4, .w8, .w16, .w32].map (fun w => (w.bits, w.valueMask, w.signBit, w.maxSigned, w.minSigned)) =
      [(4, 15, 8, 7, -8), (8, 255, 128, 127, -128), (16, 65535, 32768, 32767, -32768),
        (32, 4294967295, 2147483648, 2147483647, -2147483648)] := by decide

/-! The instructions, from 95_test_vectors.md -/

/-- E1. -/
theorem test_add_e1 : responseOf (step (waiting 0x00000006_00000007_00000004_00000000)) =
    some (.computation ⟨false, true, true, false, true⟩ ⟨13, -3⟩
      ⟨['1', '3'], ['-', '3'], ['1', '1', '0', '1'], ['D']⟩) := by decide

/-- Section 2.2: `add(2147483648, 4294967295, 32)`. -/
theorem test_add_w32 : zncbv (responseOf (step (waiting 0x80000000_FFFFFFFF_00000020_00000000))) =
    [false, false, true, false, true] := by decide

/-- Section 2.3: `sub(5, 0, 4)`, conflict C1. -/
theorem test_sub_zero_borrows : zncbv (responseOf (step (waiting 0x00000005_00000000_00000004_00000001))) =
    [false, false, false, true, false] := by decide

/-- Section 2.3: `sub(0, 2147483648, 32)`. -/
theorem test_sub_sign_bit_overflows : zncbv (responseOf (step (waiting 0x00000000_80000000_00000020_00000001))) =
    [false, true, false, true, true] := by decide

/-- Section 2.4: `and(0x5A, 0x3C, 8)` and `and(0xF0, 0xFF, 4)`. -/
theorem test_and : valueOf (responseOf (step (waiting 0x0000005A_0000003C_00000008_00000002))) =
    some ⟨24, 24⟩ := by decide
theorem test_and_masks : zncbv (responseOf (step (waiting 0x000000F0_000000FF_00000004_00000002))) =
    [true, false, false, true, false] := by decide

/-- Section 2.4: `or(-1, 0x0F0F, 16)`. -/
theorem test_or : valueOf (responseOf (step (waiting 0xFFFFFFFF_00000F0F_00000010_00000003))) =
    some ⟨65535, -1⟩ := by decide

/-- Section 2.4: `xor(-1, 0x0F0F, 16)`. -/
theorem test_xor : valueOf (responseOf (step (waiting 0xFFFFFFFF_00000F0F_00000010_00000004))) =
    some ⟨61680, -3856⟩ := by decide

/-- Section 2.4: `nand(0xC, 0xA, 4)` and `nand(0, 0, 32)`. -/
theorem test_nand : valueOf (responseOf (step (waiting 0x0000000C_0000000A_00000004_00000005))) =
    some ⟨7, 7⟩ := by decide
theorem test_nand_w32 : valueOf (responseOf (step (waiting 0x00000000_00000000_00000020_00000005))) =
    some ⟨4294967295, -1⟩ := by decide

/-- P3 step 1: `format(0x94, 8)`. -/
theorem test_format : responseOf (step (waiting 0x00000094_00000000_00000008_00000006)) =
    some (.formatted ⟨148, -108⟩
      ⟨['1', '4', '8'], ['-', '1', '0', '8'], ['1', '0', '0', '1', '0', '1', '0', '0'], ['9', '4']⟩
      ['0', '1', '1', '0', '1', '1', '0', '0']) := by decide

/-- Section 2.6: `sub(1, 1, 0xffffffff)`. -/
theorem test_illegal_width : responseOf (step (waiting 0x00000001_00000001_FFFFFFFF_00000001)) =
    some (.error .unsupportedWidth) := by decide

/-- Section 2.6: SUB with reserved bits set and an illegal width is refused, not answered. -/
theorem test_refused_before_width : refusalOf (step (waiting 0x00000001_00000001_00000040_00000029)) =
    some (.reservedRequest .reservedBits) := by decide

/-- Section 2.5: the ASCII bytes of the signed string of `format(13, 4)`. -/
theorem test_ascii : asciiBytes (sdec (-3)) = [0x2D, 0x33] := by decide

/-- Section 2.2: `add(-1, 1, 8)` with a comment. -/
theorem test_assemble : (match assembleText ['a', 'd', 'd', '(', '-', '1', ',', ' ', '1', ',', ' ', '8', ')', ' ', ';'] with
    | .ok q => some q
    | .error _ => none) = some 0xFFFFFFFF_00000001_00000008_00000000 := by decide

/-- R62: hexadecimal. -/
theorem test_literal_hex : parseLiteral ['0', 'x', '8', '2'] = some 130 := by decide

/-- R50: a request word issued as bytes, and received, as one history: E1 issued, run and collected. -/
theorem test_history : (history [.issue 0x00000006_00000007_00000004_00000000, .step, .collect 0] .reset).map
    (fun p => (p.1.map Answer.request, p.2)) = some ([.add 6 7 4], .reset) := by decide

/-! For each statement with hypotheses: values that meet them -/

theorem test_hyp_DecodeOfEncodeIsIdentity : (Instr.format 0x80000000 7 3).wellFormed = true := by decide

theorem test_hyp_EncodeOfDecodeIsIdentity : decode 0x0000000C_0000000A_00000004_00000005 = .instr (.nand 0xC 0xA 4) := by
  decide

/-- Both ways to be reserved, at the lowest and the highest reserved bit, and a request that is not. -/
theorem test_hyp_ReservedRequestsAreRefused :
    (waiting 0x00000001_00000001_00000008_00000007).pending = [0x00000001_00000001_00000008_00000007] ∧
    BitVec.extractLsb' 0 3 (0x00000001_00000001_00000008_00000007 : ReqWord) = 0b111#3 ∧
    BitVec.extractLsb' 3 29 (0x00000001_00000001_00000008_00000008 : ReqWord) ≠ 0#29 ∧
    BitVec.extractLsb' 3 29 (0x00000001_00000001_00000004_80000006 : ReqWord) ≠ 0#29 ∧
    ¬(BitVec.extractLsb' 0 3 (0x00000001_00000001_00000003_00000006 : ReqWord) = 0b111#3 ∨
      BitVec.extractLsb' 3 29 (0x00000001_00000001_00000003_00000006 : ReqWord) ≠ 0#29) := by decide

theorem test_hyp_AssembledRequestLayout :
    Operation.sub ≠ .format ∧ (AsmLine.mk .sub [-2147483648, 4294967295, 4294967295]).wellFormed = true ∧
    (AsmLine.mk .format [-2147483648, 0]).wellFormed = true := by decide

theorem test_hyp_AssemblerTakesExactlyTheRanges :
    Operation.xor ≠ .format ∧ (-2 : Int) ^ 31 ≤ -2147483648 ∧ (-2147483648 : Int) < 0 := by decide

/-- A line of text with a wrong number of literals, for FORMAT and for another operation (R61), and one without any. -/
theorem test_hyp_AssemblerTakesExactlyTheRanges_count :
    [1, 2, 3].length ≠ (if Operation.format = .format then 2 else 3) ∧
    parseLine ['f', 'o', 'r', 'm', 'a', 't', '(', '1', ',', '2', ',', '3', ')'] = .ok ⟨.format, [1, 2, 3]⟩ ∧
    [1, 2].length ≠ (if Operation.or = .format then 2 else 3) ∧
    parseLine ['o', 'r', '(', '1', ',', '2', ')'] = .ok ⟨.or, [1, 2]⟩ ∧
    ([] : List Int).length ≠ (if Operation.or = .format then 2 else 3) := by decide

theorem test_hyp_SignedReading : 15 ≤ 2 ^ Width.w4.bits - 1 ∧ 2 ^ 32 - 1 ≤ 2 ^ Width.w32.bits - 1 := by decide

theorem test_hyp_SignBitTellsNegative : 8 < 2 ^ Width.w4.bits ∧ 7 < 2 ^ Width.w4.bits := by decide

theorem test_hyp_BitsAboveTheWidthDoNotMatter :
    Width.ofTag 4 = some .w4 ∧ (0x1F : Word).toNat % 2 ^ Width.w4.bits = (0xF : Word).toNat % 2 ^ Width.w4.bits ∧
    (0xF0 : Word).toNat % 2 ^ Width.w4.bits = (0 : Word).toNat % 2 ^ Width.w4.bits := by decide

/-- The hypothesis of the statements about one instruction at a legal width (`AddAnswers`, `AddOverflowIsExact`,
`AddCarryIsUnsignedWrap`, `AddCarryAndOverflowIndependent`, `SubAnswers`, `SubOverflowDiffersOnlyAtSignBit`, `SubOverflowIsExact`,
`SubIsDifferenceModuloWidth`, `SubInvertsAdd`, `LogicalOperationsAnswer`, `NandIsXorOfAnd`, `FormatAnswers`,
`ComIsBinOfZeroMinusValue`), at each of the four widths. -/
theorem test_hyp_LegalWidth : Width.ofTag 4 = some .w4 ∧ Width.ofTag 8 = some .w8 ∧
    Width.ofTag 16 = some .w16 ∧ Width.ofTag 32 = some .w32 := by decide

/-- A completion at that hypothesis, for each constructor: the step of its own effect, as the statements conclude it. -/
theorem test_hyp_AddAnswers : responseOf (exec (.add 15 1 4) .reset) = some (addResponse 15 1 .w4) := by decide
theorem test_hyp_SubAnswers : responseOf (exec (.sub 0x80 0 8) .reset) = some (subResponse 0x80 0 .w8) := by decide
theorem test_hyp_LogicalOperationsAnswer :
    valueOf (responseOf (exec (.and 0xC 0xA 4) .reset)) = some ⟨8, -8⟩ ∧
    valueOf (responseOf (exec (.or 0xC 0xA 4) .reset)) = some ⟨14, -2⟩ ∧
    valueOf (responseOf (exec (.xor 0xC 0xA 4) .reset)) = some ⟨6, 6⟩ ∧
    valueOf (responseOf (exec (.nand 0xF 0xF 4) .reset)) = some ⟨0, 0⟩ := by decide
theorem test_hyp_FormatAnswers : valueOf (responseOf (exec (.format 0x1F 9 4) .reset)) = some ⟨15, -1⟩ := by decide

/-- Both clauses: a right operand 0, and one that is not. -/
theorem test_hyp_SubBorrowMeaning : Width.ofTag 4 = some .w4 ∧ (0x10 : Word).toNat % 2 ^ Width.w4.bits = 0 ∧
    (0x1F : Word).toNat % 2 ^ Width.w4.bits ≠ 0 := by decide

theorem test_hyp_FormatIgnoresRight :
    BitVec.extractLsb' 0 32 (0x00000001_FFFFFFFF_00000003_00000006 : ReqWord) = 6#32 ∧
    (match assemble ⟨.format, [-1, 8]⟩ with
      | .ok q => some q
      | .error _ => none) = some 0xFFFFFFFF_00000000_00000008_00000006 := by decide

theorem test_hyp_DecimalNumerals : (4294967295 : Nat) ≠ 0 ∧
    dec 4294967295 = ['4', '2', '9', '4', '9', '6', '7', '2', '9', '5'] := by decide

theorem test_hyp_BinaryCharacters : 0 < Width.w4.bits ∧ 31 < Width.w32.bits := by decide

theorem test_hyp_HexCharacters : 0 < (Width.w4.bits + 3) / 4 ∧ 7 < (Width.w32.bits + 3) / 4 := by decide

theorem test_hyp_StringsReadBackAsNumbers : 0 < 32 ∧ 4294967295 < 2 ^ 32 ∧ 0 < 1 ∧ 1 < 2 ^ 1 ∧
    15 ≤ 2 ^ Width.w4.bits - 1 ∧ 4294967295 ≤ 2 ^ Width.w32.bits - 1 ∧
    (∃ t a, exec (.add 7 1 4) .reset = .next t ∧ t.answered = State.reset.answered ++ [a]) ∧
    ∃ t a, exec (.format 0x80000000 0 32) .reset = .next t ∧ t.answered = State.reset.answered ++ [a] :=
  ⟨by decide, by decide, by decide, by decide, by decide, by decide, ⟨_, _, rfl, rfl⟩, ⟨_, _, rfl, rfl⟩⟩

theorem test_hyp_StringLengthBounds : 4294967295 ≤ 2 ^ Width.w32.bits - 1 ∧ 15 ≤ 2 ^ Width.w4.bits - 1 := by decide

theorem test_hyp_OutputCharactersAreAscii : ∃ t a, exec (.sub 2 3 4) .reset = .next t ∧
    t.answered = State.reset.answered ++ [a] := ⟨_, _, rfl, rfl⟩

theorem test_hyp_StepRunsTheDecodedInstruction :
    (waiting 0x00000001_00000000_00000008_00000006).takeRequest =
      some (0x00000001_00000000_00000008_00000006, State.reset) ∧
    decode 0x00000001_00000000_00000008_00000006 = .instr (.format 1 0 8) ∧
    (Instr.format 1 0 8).wellFormed = true := by decide

theorem test_hyp_ExactlyOneRequestIsTaken : (waiting 7).pending ≠ [] := by decide

theorem test_hyp_IdleStepChangesNothing : State.reset.pending = [] := by decide

/-- Both arms of the statement: a request that is answered and one that is refused. -/
theorem test_hyp_StepRefinesEval :
    (waiting 0x00000001_00000001_00000003_00000000).takeRequest =
      some (0x00000001_00000001_00000003_00000000, State.reset) ∧
    eval 0x00000001_00000001_00000003_00000000 = .respond (.error .unsupportedWidth) ∧
    eval 0x00000001_00000001_00000008_00000007 = .refused := by decide

/-- Two states that share the request and nothing else. -/
theorem test_hyp_OutcomeDependsOnTheRequestAlone :
    (waiting 5).pending = [5] ∧ (State.mk [5] [⟨.add 0 0 3, .error .unsupportedWidth⟩] 9 4).pending = [5] := by decide

/-- A state with a response outstanding, in which both invariants hold and from which a step goes on. -/
def answeredOnce : State := ⟨[0x00000006_00000007_00000004_00000000], [⟨.add 0 0 3, .error .unsupportedWidth⟩], 0, 0⟩

theorem test_hyp_StepKeepsPortsLawful : PortsLawful answeredOnce ∧ ∃ t, step answeredOnce = .next t := by
  refine ⟨fun a ha => ?_, _, rfl⟩
  rw [List.mem_singleton.1 ha]
  exact show Width.ofTag 3 = none by decide

theorem test_hyp_StepKeepsPortsExact : PortsExact answeredOnce ∧ ∃ t, step answeredOnce = .next t := by
  refine ⟨fun a ha => ?_, _, rfl⟩
  rw [List.mem_singleton.1 ha]
  decide

/-- Two waiting requests, one with an illegal width (also for `WellFormedRequestsNeverStopTheBlock`). -/
def twoWaiting : State := ⟨[0x00000005_00000000_00000004_00000001, 0x00000001_00000001_00000003_00000000], [], 0, 0⟩

theorem test_hyp_EveryRequestIsAnswered : AllAnswerable twoWaiting := by
  intro q hq
  rcases List.mem_cons.1 hq with rfl | hq
  · decide
  · rw [List.mem_singleton.1 hq]
    decide

/-- The same two requests in the other order. -/
theorem test_hyp_OrderOfRequestsDoesNotMatter : AllAnswerable twoWaiting ∧
    twoWaiting.pending.Perm [0x00000001_00000001_00000003_00000000, 0x00000005_00000000_00000004_00000001] :=
  ⟨test_hyp_EveryRequestIsAnswered, List.Perm.swap _ _ _⟩

/-- A history with a pull of the reset line in it: the first request is dropped, the second is answered. -/
theorem test_hyp_ReceivedResponsesAreEval :
    ((history [.issue 0x00000006_00000007_00000004_00000000, .reset,
      .issue 0x00000005_00000000_00000004_00000001, .step, .collect 0] .reset).map fun p => p.1.map Answer.request) =
      some [.sub 5 0 4] := by decide

/-- Hosts that issue one more well-formed request before every step. -/
theorem test_hyp_NoRequestWaitsForEver : AllAnswerable twoWaiting ∧
    ∀ k : Nat, ∀ q ∈ (fun _ => [0x00000001_00000000_00000008_00000006] : Nat → List ReqWord) k,
      (Request.unpack q).wellFormed = true := by
  refine ⟨test_hyp_EveryRequestIsAnswered, fun _ q hq => ?_⟩
  rw [List.mem_singleton.1 hq]
  decide

/-- Pairs of requests, issued again and again, of which the later is always taken first. -/
def laterFirst (n : Nat) : PortEvent :=
  match n % 4 with
  | 0 => .issue 0x00000006_00000007_00000004_00000000
  | 1 => .issue 0x00000005_00000000_00000004_00000001
  | 2 => .serve 1
  | _ => .serve 0

/-- What waits before the `n`th event of `laterFirst`. -/
def laterFirstWaiting (n : Nat) : List ReqWord :=
  match n % 4 with
  | 0 => []
  | 1 => [0x00000006_00000007_00000004_00000000]
  | 2 => [0x00000006_00000007_00000004_00000000, 0x00000005_00000000_00000004_00000001]
  | _ => [0x00000006_00000007_00000004_00000000]

theorem test_hyp_EveryFairOrderOfServiceIsPossible : laterFirstWaiting 0 = State.reset.pending ∧
    (∀ n, (laterFirst n).waitingAfter (laterFirstWaiting n) = some (laterFirstWaiting (n + 1))) ∧
    ∀ n, laterFirstWaiting n ≠ [] → ∃ m, n ≤ m ∧ (laterFirst m = .serve 0 ∨ laterFirst m = .reset) := by
  refine ⟨rfl, fun n => ?_, fun n _ => ⟨4 * n + 3, by omega, .inl ?_⟩⟩
  · have h : n % 4 = 0 ∨ n % 4 = 1 ∨ n % 4 = 2 ∨ n % 4 = 3 := by omega
    rcases h with h | h | h | h
    · simp [laterFirst, laterFirstWaiting, PortEvent.waitingAfter, h, Nat.add_mod]
    · simp [laterFirst, laterFirstWaiting, PortEvent.waitingAfter, h, Nat.add_mod]
    · simp [laterFirst, laterFirstWaiting, PortEvent.waitingAfter, h, Nat.add_mod]
    · simp [laterFirst, laterFirstWaiting, PortEvent.waitingAfter, h, Nat.add_mod]
  · have h : (4 * n + 3) % 4 = 3 := by omega
    simp only [laterFirst, h]

theorem test_hyp_ChainingThroughUnsignedOrSigned :
    Width.ofTag 8 = some .w8 ∧ 255 ≤ 2 ^ Width.w8.bits - 1 ∧ bits32 (toSigned 255 .w8) = 0xFFFFFFFF := by decide

end Sys2Proof.Tests
end

section
/-! PROOFS. Every step keeps the responses lawful (O43): every instruction's meaning is the width check before one response, and each
such response is lawful for its request. -/

namespace Sys2Proof.Machine

/-! Every instruction's meaning is one width check -/

/-- The response that an instruction computes at a legal width. -/
def instrResult : Instr → Width → Response
  | .add left right _ => addResponse left right
  | .sub left right _ => subResponse left right
  | .and left right _ => logicResponse (fun l r => l &&& r) left right
  | .or left right _ => logicResponse (fun l r => l ||| r) left right
  | .xor left right _ => logicResponse (fun l r => l ^^^ r) left right
  | .nand left right _ => logicResponse (fun l r => ~~~(l &&& r)) left right
  | .format value _ _ => formatResponse value

/-- `exec` makes the width check of R77 and answers with the instruction's result. -/
theorem exec_eq_withWidth (i : Instr) (s : State) :
    exec i s = withWidth i i.widthTag (instrResult i) s := by
  cases i <;> rfl

/-- Everything an instruction can do: raise at an illegal width, or answer its result at a legal one. -/
theorem exec_cases (i : Instr) (s : State) :
    (Width.ofTag i.widthTag = none ∧ exec i s = .next (s.answer i (.error .unsupportedWidth))) ∨
      ∃ w, Width.ofTag i.widthTag = some w ∧ exec i s = .next (s.answer i (instrResult i w)) := by
  rw [exec_eq_withWidth]
  exact withWidth_cases i i.widthTag (instrResult i) s

/-- Taking a request leaves the response port as it is. -/
theorem takeRequest_answered {s s' : State} {q : ReqWord} (h : s.takeRequest = some (q, s')) :
    s'.answered = s.answered := by
  rcases takeRequest_cases s with ⟨-, ht⟩ | ⟨_, -, ht⟩ | ⟨k, _, -, -, ht, -⟩
  · cases ht.symm.trans h
  · cases ht.symm.trans h
    rfl
  · cases ht.symm.trans h
    exact s.serve_answered k

/-! The value and the flags of a masked result -/

/-- A masked value and its signed reading are in range (R30). -/
theorem valueLawful_numeric {u : Nat} {w : Width} (h : u < 2 ^ w.bits) : ValueLawful (numeric u w) w := by
  have hdouble := w.two_mul_signBit
  have hpow : (2 : Int) ^ w.bits = 2 * w.signBit := by exact_mod_cast hdouble.symm
  have hmask : w.valueMask = 2 ^ w.bits - 1 := rfl
  have hmax : w.maxSigned = w.signBit - 1 := rfl
  have hmin : w.minSigned = -(w.signBit : Int) := by simp [Width.minSigned, Width.signBit]
  have hread : toSigned u w = if u < w.signBit then (u : Int) else u - 2 ^ w.bits := by
    split
    case isTrue hlt => exact toSigned_of_lt hlt
    case isFalse hge => exact toSigned_of_ge (not_lt.1 hge)
  simp only [ValueLawful, numeric_u, numeric_s, true_and]
  rw [hread, hmask, hmax, hmin]
  split <;> omega

/-- The negative flag of a masked value tells the sign of its signed reading (R74, R95). -/
theorem negativeFlag_eq_decide {u : Nat} {w : Width} (h : u < 2 ^ w.bits) :
    negativeFlag u w = decide (toSigned u w < 0) := by
  have hsign : negativeFlag u w = decide (w.signBit ≤ u) := sign_eq_decide u w h
  rw [hsign, decide_eq_decide]
  rcases Nat.lt_or_ge u w.signBit with hlt | hge
  · rw [toSigned_of_lt hlt]
    omega
  · have hcast : (u : Int) < 2 ^ w.bits := by exact_mod_cast h
    rw [toSigned_of_ge hge]
    omega

/-- A flag set made of a masked value's own zero and negative is lawful, whatever its overflow and carry (R29, R94, R95). -/
theorem flagsLawful_make {u : Nat} {w : Width} (h : u < 2 ^ w.bits) (overflow carry : Bool) :
    FlagsLawful (.make (zeroFlag u) (negativeFlag u w) overflow carry) (numeric u w) :=
  ⟨rfl, beq_eq_decide u 0, negativeFlag_eq_decide h⟩

/-! Each kind of response is lawful -/

/-- A response has the shape of every computation: a masked value, its own zero and negative, and any overflow and carry. -/
def IsComputation (w : Width) (r : Response) : Prop :=
  ∃ u overflow carry, u < 2 ^ w.bits ∧
    r = computation (.make (zeroFlag u) (negativeFlag u w) overflow carry) (numeric u w) w

/-- A computation is lawful for every request but FORMAT's. -/
theorem IsComputation.lawful {i : Instr} {w : Width} {r : Response} (h : IsComputation w r)
    (hi : i.operation ≠ .format) (hw : Width.ofTag i.widthTag = some w) : ResponseLawful i r := by
  obtain ⟨u, overflow, carry, hu, rfl⟩ := h
  exact ⟨hi, w, hw, valueLawful_numeric hu, flagsLawful_make hu overflow carry, rfl⟩

/-- The sum that `AddCore` masks fits its width, and its flags are those of that sum. -/
theorem isComputation_addCore (l r : Word) (w : Width) (overflow : Bool) :
    IsComputation w (computation
      (.make (addCore l r w).zero (addCore l r w).negative overflow (addCore l r w).carry)
      ⟨(addCore l r w).u, (addCore l r w).s⟩ w) := by
  rw [addCore_eq]
  exact ⟨_, _, _, Nat.mod_lt _ (Nat.two_pow_pos _), rfl⟩

theorem isComputation_addResponse (l r : Word) (w : Width) : IsComputation w (addResponse l r w) :=
  isComputation_addCore (mask l w) (mask r w) w _

theorem isComputation_subResponse (l r : Word) (w : Width) : IsComputation w (subResponse l r w) :=
  isComputation_addCore (mask l w) (neg r w) w _

theorem isComputation_logicResponse (f : Word → Word → Word) (l r : Word) (w : Width) :
    IsComputation w (logicResponse f l r w) :=
  ⟨logicCore f l r w, false, false, mask_toNat_lt _ w, rfl⟩

/-- Negation at a width is the two's complement of the masked value (R75). -/
theorem neg_toNat (x : Word) (w : Width) :
    (neg x w).toNat = (2 ^ w.bits - x.toNat % 2 ^ w.bits) % 2 ^ w.bits := by
  have hx := x.isLt
  have htwos : ~~~x + 1 = -x := (BitVec.neg_eq_not_add x).symm
  rw [neg, mask_toNat, htwos, BitVec.toNat_neg]
  cases w <;> simp only [Width.bits] <;> omega

/-- FORMAT's response is lawful for its request (R30, R157). -/
theorem formatResponse_lawful {value ignored tag : Word} {w : Width} (hw : Width.ofTag tag = some w) :
    ResponseLawful (.format value ignored tag) (formatResponse value w) := by
  refine ⟨rfl, w, hw, valueLawful_numeric (mask_toNat_lt value w), rfl, ?_⟩
  rw [complementText, neg_toNat, numeric_u, mask_toNat]

/-- At a legal width every instruction's result is lawful for its request. -/
theorem instrResult_lawful {i : Instr} {w : Width} (hw : Width.ofTag i.widthTag = some w) :
    ResponseLawful i (instrResult i w) := by
  cases i with
  | add l r _ => exact (isComputation_addResponse l r w).lawful nofun hw
  | sub l r _ => exact (isComputation_subResponse l r w).lawful nofun hw
  | and l r _ => exact (isComputation_logicResponse _ l r w).lawful nofun hw
  | or l r _ => exact (isComputation_logicResponse _ l r w).lawful nofun hw
  | xor l r _ => exact (isComputation_logicResponse _ l r w).lawful nofun hw
  | nand l r _ => exact (isComputation_logicResponse _ l r w).lawful nofun hw
  | format _ _ _ => exact formatResponse_lawful hw

/-! The invariant -/

/-- One more lawful response keeps the port lawful. -/
theorem PortsLawful.answer {s : State} {i : Instr} {r : Response} (hs : PortsLawful s)
    (hr : ResponseLawful i r) : PortsLawful (s.answer i r) := by
  intro a ha
  rw [State.answer_answered, List.mem_append, List.mem_singleton] at ha
  rcases ha with ha | rfl
  · exact hs a ha
  · exact hr

/-- Every instruction keeps the responses lawful. -/
theorem exec_keeps_portsLawful {i : Instr} {s t : State} (hs : PortsLawful s) (h : exec i s = .next t) :
    PortsLawful t := by
  rcases exec_cases i s with ⟨hw, he⟩ | ⟨w, hw, he⟩
  · cases he.symm.trans h
    exact hs.answer hw
  · cases he.symm.trans h
    exact hs.answer (instrResult_lawful hw)

/-- Settles O43, by what a step can do: nothing, refuse, or run an instruction after taking its request. -/
theorem stepKeepsPortsLawful : Obligations.StepKeepsPortsLawful := by
  intro s t hs h
  rcases step_cases s with ⟨-, hstep⟩ | ⟨_, _, _, -, -, hstep⟩ | ⟨q, s', i, htake, -, hstep⟩
  · cases hstep.symm.trans h
    exact hs
  · cases hstep.symm.trans h
  · have hs' : PortsLawful s' := by
      intro a ha
      rw [takeRequest_answered htake] at ha
      exact hs a ha
    exact exec_keeps_portsLawful hs' (hstep.symm.trans h)

end Sys2Proof.Machine
end

section
/-! PROOFS. The request word: what the decoder reads from it (O4, O28) and what the assembler writes to it (O5, O28). -/

namespace Sys2Proof

/-! Bit vectors laid side by side -/

/-- A field of a field is a field of the whole. -/
theorem extractLsb'_of_extractLsb' {n : Nat} (x : BitVec n) {start len off width : Nat} (h : off + width ≤ len) :
    (x.extractLsb' start len).extractLsb' off width = x.extractLsb' (start + off) width := by
  refine BitVec.eq_of_getLsbD_eq fun k hk => ?_
  have hlen : off + k < len := by omega
  simp only [BitVec.getLsbD_extractLsb', hk, hlen, decide_true, Bool.true_and, Nat.add_assoc]

/-- Laying `x` above `y` weighs it by the size of `y`. -/
theorem toNat_append_eq_add {m n : Nat} (x : BitVec m) (y : BitVec n) :
    (x ++ y).toNat = x.toNat * 2 ^ n + y.toNat := by
  rw [BitVec.toNat_append, ← Nat.shiftLeft_add_eq_or_of_lt y.isLt, Nat.shiftLeft_eq]

/-! Operation codes -/

@[simp] theorem Operation.ofCode_code (op : Operation) : Operation.ofCode op.code = some op := by
  cases op <;> rfl

/-- Every operation code but the reserved `0b111` is some operation's (R55, R59). -/
theorem Operation.exists_code_eq {c : BitVec 3} (h : c ≠ 0b111#3) : ∃ op : Operation, c = op.code := by
  have hall : ∀ c : BitVec 3, c ≠ 0b111#3 →
      ∃ op ∈ [Operation.add, .sub, .and, .or, .xor, .nand, .format], c = op.code := by decide
  exact (hall c h).imp fun _ => And.right

section
variable (op : Operation) (l r t : Word)

@[simp] theorem Operation.instr_left : (op.instr l r t).left = l := by cases op <;> rfl
@[simp] theorem Operation.instr_right : (op.instr l r t).right = r := by cases op <;> rfl
@[simp] theorem Operation.instr_widthTag : (op.instr l r t).widthTag = t := by cases op <;> rfl
@[simp] theorem Operation.instr_operation : (op.instr l r t).operation = op := by cases op <;> rfl

end

/-! The decoder, one equation per outcome -/

theorem decode_of_reserved_code {q : ReqWord} (hop : q.extractLsb' 0 3 = 0b111#3) :
    decode q = .reserved .operationCode := by
  have hnone : Operation.ofCode 0b111#3 = none := rfl
  simp only [decode, Request.unpack, hop, hnone]

theorem decode_of_reserved_bits {q : ReqWord} {op : Operation} (hop : q.extractLsb' 0 3 = op.code)
    (hrsv : q.extractLsb' 3 29 ≠ 0#29) : decode q = .reserved .reservedBits := by
  simp only [decode, Request.unpack, hop, Operation.ofCode_code]
  exact if_neg hrsv

theorem decode_of_code {q : ReqWord} {op : Operation} (hop : q.extractLsb' 0 3 = op.code)
    (hrsv : q.extractLsb' 3 29 = 0#29) :
    decode q = .instr (op.instr (q.extractLsb' 96 32) (q.extractLsb' 64 32) (q.extractLsb' 32 32)) := by
  simp only [decode, Request.unpack, hop, Operation.ofCode_code]
  exact if_pos hrsv

/-- A request word with either mark of R59 decodes to a reserved one. -/
theorem exists_decode_eq_reserved {q : ReqWord} (h : q.extractLsb' 0 3 = 0b111#3 ∨ q.extractLsb' 3 29 ≠ 0#29) :
    ∃ why, decode q = .reserved why := by
  by_cases hop : q.extractLsb' 0 3 = 0b111#3
  · exact ⟨_, decode_of_reserved_code hop⟩
  · obtain ⟨op, hcode⟩ := Operation.exists_code_eq hop
    exact ⟨_, decode_of_reserved_bits hcode (h.resolve_left hop)⟩

/-- A request word with neither mark of R59 decodes to an instruction. -/
theorem exists_decode_eq_instr {q : ReqWord} (h : ¬(q.extractLsb' 0 3 = 0b111#3 ∨ q.extractLsb' 3 29 ≠ 0#29)) :
    ∃ i, decode q = .instr i := by
  obtain ⟨hop, hrsv⟩ := not_or.1 h
  obtain ⟨op, hcode⟩ := Operation.exists_code_eq hop
  exact ⟨_, decode_of_code hcode (not_not.1 hrsv)⟩

/-! The encoder as a number -/

theorem Request.pack_toNat (r : Request) : r.pack.toNat =
    r.left.toNat * 2 ^ 96 + r.right.toNat * 2 ^ 64 + r.widthTag.toNat * 2 ^ 32 + r.rsv.toNat * 2 ^ 3 + r.op.toNat := by
  simp only [Request.pack, toNat_append_eq_add]
  omega

/-- R50, R64: an instruction's request word is its fields and its operation's code, each at its own weight. -/
theorem encode_toNat (i : Instr) : (encode i).toNat =
    i.left.toNat * 2 ^ 96 + i.right.toNat * 2 ^ 64 + i.widthTag.toNat * 2 ^ 32 + i.operation.code.toNat := by
  have hrsv : i.request.rsv.toNat = 0 := rfl
  rw [encode, Request.pack_toNat, hrsv, Nat.zero_mul, Nat.add_zero]
  rfl

theorem unpack_encode (i : Instr) : Request.unpack (encode i) = i.request :=
  Laws.unpack_pack i.request

/-- The right field of an instruction's request word is the instruction's right operand (R50). -/
theorem encode_extractLsb'_right (i : Instr) : (encode i).extractLsb' 64 32 = i.right :=
  congrArg Request.right (unpack_encode i)

namespace Machine

/-! A step on a request that waits alone -/

/-- A request that waits alone is the one taken. -/
theorem takeRequest_of_alone {s : State} {q : ReqWord} (h : s.pending = [q]) :
    s.takeRequest = some (q, { s with pending := [] }) := by
  simp only [State.takeRequest, State.takeRequestBy, h]

theorem step_of_decode_reserved {s s' : State} {q : ReqWord} {why : Reserved} (ht : s.takeRequest = some (q, s'))
    (hd : decode q = .reserved why) : step s = .refused (.reservedRequest why) := by
  simp only [step, ht, hd]

theorem step_of_decode_instr {s s' : State} {q : ReqWord} {i : Instr} (ht : s.takeRequest = some (q, s'))
    (hd : decode q = .instr i) : step s = exec i s' := by
  simp only [step, ht, hd]

/-- Every instruction answers its request, at any width tag. -/
theorem exists_exec_eq_answer (i : Instr) (s : State) : ∃ r, exec i s = .next (s.answer i r) := by
  rcases exec_cases i s with ⟨-, he⟩ | ⟨w, -, he⟩
  · exact ⟨_, he⟩
  · exact ⟨_, he⟩

/-- Settles O4, by the decoder's two kinds of outcome on the one request that waits. -/
theorem reservedRequestsAreRefused : Obligations.ReservedRequestsAreRefused := by
  intro s q hs
  have htake := takeRequest_of_alone hs
  constructor
  · intro hreserved
    obtain ⟨why, hd⟩ := exists_decode_eq_reserved hreserved
    exact ⟨why, step_of_decode_reserved htake hd⟩
  · intro hassigned
    obtain ⟨i, hd⟩ := exists_decode_eq_instr hassigned
    obtain ⟨r, he⟩ := exists_exec_eq_answer i { s with pending := [] }
    exact ⟨⟨i, r⟩, (step_of_decode_instr htake hd).trans he⟩

/-! The assembler -/

theorem bits32_toNat (n : Int) : (bits32 n).toNat = (n % 2 ^ 32).toNat :=
  BitVec.toNat_ofInt n

/-- A width literal in its range is its own pattern (R62). -/
theorem bits32_toNat_of_widthLiteralOk {w : Int} (h : widthLiteralOk w = true) : (bits32 w).toNat = w.toNat := by
  obtain ⟨hlow, hhigh⟩ : 0 ≤ w ∧ w ≤ 2 ^ 32 - 1 := by simpa [widthLiteralOk] using h
  rw [bits32_toNat, Int.emod_eq_of_lt hlow (by omega)]

/-- R61, R62 for a line of three literals. -/
theorem wellFormed_of_ne_format {op : Operation} (hop : op ≠ .format) (l r w : Int) :
    (AsmLine.mk op [l, r, w]).wellFormed = (operandLiteralOk l && operandLiteralOk r && widthLiteralOk w) := by
  cases op with
  | format => exact absurd rfl hop
  | add | sub | and | or | xor | nand => rfl

/-- R61, R62 for FORMAT's line. -/
theorem wellFormed_format (v w : Int) :
    (AsmLine.mk .format [v, w]).wellFormed = (operandLiteralOk v && widthLiteralOk w) := rfl

/-- A line of three literals: its operation's request word, or a refusal for its ranges (R61, R62, R64). -/
theorem assemble_of_ne_format {op : Operation} (hop : op ≠ .format) (l r w : Int) :
    assemble ⟨op, [l, r, w]⟩ =
      if (AsmLine.mk op [l, r, w]).wellFormed then .ok (encode (op.instr (bits32 l) (bits32 r) (bits32 w)))
      else .error .outOfRange := by
  cases op with
  | format => exact absurd rfl hop
  | add | sub | and | or | xor | nand => rfl

/-- FORMAT's line: its request word, with zero for the right field, or a refusal for its ranges (R61, R62, R64). -/
theorem assemble_format (v w : Int) :
    assemble ⟨.format, [v, w]⟩ =
      if (AsmLine.mk .format [v, w]).wellFormed then .ok (encode (.format (bits32 v) 0 (bits32 w)))
      else .error .outOfRange := rfl

/-- The worked example's text reads as its line (R64). -/
theorem parseLine_workedExample :
    parseLine ['a', 'd', 'd', '(', '0', 'b', '0', '1', '1', '0', ',', ' ',
      '0', 'b', '0', '1', '1', '1', ',', ' ', '4', ')'] = .ok ⟨.add, [6, 7, 4]⟩ := by decide

/-- Settles O5, by the encoder as a number and the patterns of the literals. -/
theorem assembledRequestLayout : Obligations.AssembledRequestLayout := by
  refine ⟨?threeLiterals, ?format, ⟨rfl, rfl, rfl, rfl, rfl, rfl⟩, ?workedExample⟩
  case threeLiterals =>
    intro op l r w hop hwf
    have hranges := (wellFormed_of_ne_format hop l r w).symm.trans hwf
    have hw : widthLiteralOk w = true := (Bool.and_eq_true_iff.1 hranges).2
    refine ⟨_, (assemble_of_ne_format hop l r w).trans (if_pos hwf), ?_⟩
    simp only [encode_toNat, Operation.instr_left, Operation.instr_right, Operation.instr_widthTag,
      Operation.instr_operation, bits32_toNat_of_widthLiteralOk hw, bits32_toNat l, bits32_toNat r]
  case format =>
    intro v w hwf
    have hranges := (wellFormed_format v w).symm.trans hwf
    have hw : widthLiteralOk w = true := (Bool.and_eq_true_iff.1 hranges).2
    refine ⟨_, (assemble_format v w).trans (if_pos hwf), ?_⟩
    have hlayout := encode_toNat (.format (bits32 v) 0 (bits32 w))
    simpa [Instr.left, Instr.right, Instr.widthTag, Instr.operation, Operation.code,
      bits32_toNat_of_widthLiteralOk hw, bits32_toNat v] using hlayout
  case workedExample =>
    have hassemble : assemble ⟨.add, [6, 7, 4]⟩ = .ok 0x00000006000000070000000400000000 := by decide
    rw [assembleText, parseLine_workedExample]
    exact hassemble

/-! FORMAT and its right field -/

/-- FORMAT's code with zero reserved bits decodes to FORMAT of the word's three fields (R58). -/
theorem decode_of_format_word {q : ReqWord} (h : q.extractLsb' 0 32 = 6#32) :
    decode q = .instr (.format (q.extractLsb' 96 32) (q.extractLsb' 64 32) (q.extractLsb' 32 32)) := by
  have hop : q.extractLsb' 0 3 = Operation.format.code := by
    rw [← extractLsb'_of_extractLsb' (len := 32) q (start := 0) (off := 0) (by decide), h]
    rfl
  have hrsv : q.extractLsb' 3 29 = 0#29 := by
    rw [← extractLsb'_of_extractLsb' (len := 32) q (start := 0) (off := 3) (by decide), h]
    rfl
  exact decode_of_code hop hrsv

/-- The response to FORMAT is a function of the value and the width tag alone, the illegal tags included (R58). -/
theorem exists_format_response (x t : Word) :
    ∃ r, ∀ (g : Word) (s : State), exec (.format x g t) s = .next (s.answer (.format x g t) r) := by
  cases hw : Width.ofTag t with
  | none => exact ⟨_, fun g s => withWidth_none hw (.format x g t) (formatResponse x) s⟩
  | some w => exact ⟨_, fun g s => withWidth_some hw (.format x g t) (formatResponse x) s⟩

/-- The assembler writes FORMAT's right field as zero (R64). -/
theorem assemble_format_right {v w : Int} {q : ReqWord} (h : assemble ⟨.format, [v, w]⟩ = .ok q) :
    q.extractLsb' 64 32 = 0#32 := by
  rw [assemble_format] at h
  split at h
  case isTrue =>
    cases h
    exact encode_extractLsb'_right _
  case isFalse => cases h

/-- Settles O28, by what FORMAT decodes to, the one response for every right field, and the assembler's zero. -/
theorem formatIgnoresRight : Obligations.FormatIgnoresRight := by
  refine ⟨fun _ => decode_of_format_word, fun x g g' t s => ?_, fun _ _ _ => assemble_format_right⟩
  obtain ⟨r, hexec⟩ := exists_format_response x t
  exact ⟨r, hexec g s, hexec g' s⟩

end Machine

end Sys2Proof
end

section
/-! PROOFS. The width model: the lookup (O9), masking (O10), the signed reading (O11), and that no operation sees a bit above its width
(O14). -/

namespace Sys2Proof

/-! The width lookup -/

/-- A claim about every width is a claim about each of the four. -/
theorem Width.forall_iff {p : Width → Prop} : (∀ w, p w) ↔ p .w4 ∧ p .w8 ∧ p .w16 ∧ p .w32 := by
  refine ⟨fun h => ⟨h _, h _, h _, h _⟩, fun ⟨h4, h8, h16, h32⟩ w => ?_⟩
  cases w with
  | w4 => exact h4
  | w8 => exact h8
  | w16 => exact h16
  | w32 => exact h32

/-- A width's own bit count, as a tag, gives that width. -/
theorem Width.ofTag_of_toNat_eq_bits {tag : Word} {w : Width} (h : tag.toNat = w.bits) :
    Width.ofTag tag = some w := by
  cases w <;> simp [Width.ofTag, Width.bits, h]

/-- The lookup gives no width exactly to the tags that are no width's bit count. -/
theorem Width.ofTag_eq_none_iff (tag : Word) : Width.ofTag tag = none ↔ ∀ w : Width, tag.toNat ≠ w.bits := by
  constructor
  · intro hnone w hbits
    cases (Width.ofTag_of_toNat_eq_bits hbits).symm.trans hnone
  · intro hne
    obtain ⟨h4, h8, h16, h32⟩ : tag.toNat ≠ 4 ∧ tag.toNat ≠ 8 ∧ tag.toNat ≠ 16 ∧ tag.toNat ≠ 32 :=
      Width.forall_iff.1 hne
    rw [Width.ofTag, if_neg h4, if_neg h8, if_neg h16, if_neg h32]

/-- The lookup gives a width exactly to that width's bit count. -/
theorem Width.ofTag_eq_some_iff (tag : Word) (w : Width) : Width.ofTag tag = some w ↔ tag.toNat = w.bits := by
  refine ⟨fun hsome => ?_, Width.ofTag_of_toNat_eq_bits⟩
  by_cases hlegal : ∃ w' : Width, tag.toNat = w'.bits
  · obtain ⟨w', hbits⟩ := hlegal
    cases (Width.ofTag_of_toNat_eq_bits hbits).symm.trans hsome
    exact hbits
  · have hnone := (Width.ofTag_eq_none_iff tag).2 (not_exists.1 hlegal)
    cases hsome.symm.trans hnone

namespace Machine

/-- Settles O9, by the lookup's two equivalences. -/
theorem widthLookupIsTheClosedSet : Obligations.WidthLookupIsTheClosedSet :=
  ⟨Width.ofTag_eq_some_iff, fun tag => (Width.ofTag_eq_none_iff tag).trans Width.forall_iff, rfl, rfl, rfl, rfl⟩

/-! Masking -/

/-- The widest width masks nothing away. -/
theorem mask_w32 (x : Word) : mask x .w32 = x :=
  BitVec.eq_of_toNat_eq ((mask_toNat x .w32).trans (Nat.mod_eq_of_lt x.isLt))

/-- Settles O10, by the mask as a number. -/
theorem maskIsRemainder : Obligations.MaskIsRemainder :=
  ⟨fun x w => ⟨rfl, mask_toNat x w⟩, mask_w32, by decide⟩

/-! The signed reading -/

/-- The signed reading of a masked value is the two's-complement integer of its `b` bits (R73). -/
theorem toSigned_eq_toInt {u : Nat} {w : Width} (h : u < 2 ^ w.bits) :
    toSigned u w = (BitVec.ofNat w.bits u).toInt := by
  have hdouble := w.two_mul_signBit
  rw [BitVec.toInt_eq_toNat_cond, BitVec.toNat_ofNat, Nat.mod_eq_of_lt h]
  rcases Nat.lt_or_ge u w.signBit with hlt | hge
  · rw [toSigned_of_lt hlt, if_pos (by omega)]
  · rw [toSigned_of_ge hge, if_neg (by omega)]
    norm_cast

/-- Settles O11, by the two halves of the range; the clause on `maxSigned` is R73's own definition. -/
theorem signedReading : Obligations.SignedReading := by
  refine ⟨fun u w hu => ⟨toSigned_eq_toInt ?_, rfl⟩, by decide⟩
  have hpos : 0 < 2 ^ w.bits := Nat.two_pow_pos _
  omega

/-! No operation sees a bit above its width -/

section LowBits

variable {x x' l l' r r' : Word} {w : Width}

/-- Operands that agree in their low `b` bits mask to the same pattern. -/
theorem mask_congr (h : x.toNat % 2 ^ w.bits = x'.toNat % 2 ^ w.bits) : mask x w = mask x' w := by
  apply BitVec.eq_of_toNat_eq
  rw [mask_toNat, mask_toNat, h]

/-- Operands that agree in their low `b` bits have the same negation. -/
theorem neg_congr (h : x.toNat % 2 ^ w.bits = x'.toNat % 2 ^ w.bits) : neg x w = neg x' w := by
  apply BitVec.eq_of_toNat_eq
  rw [neg_toNat, neg_toNat, h]

theorem addResponse_congr (hl : l.toNat % 2 ^ w.bits = l'.toNat % 2 ^ w.bits)
    (hr : r.toNat % 2 ^ w.bits = r'.toNat % 2 ^ w.bits) : addResponse l r w = addResponse l' r' w := by
  rw [addResponse, addResponse, mask_congr hl, mask_congr hr]

theorem subResponse_congr (hl : l.toNat % 2 ^ w.bits = l'.toNat % 2 ^ w.bits)
    (hr : r.toNat % 2 ^ w.bits = r'.toNat % 2 ^ w.bits) : subResponse l r w = subResponse l' r' w := by
  rw [subResponse, subResponse, mask_congr hl, mask_congr hr, neg_congr hr]

theorem logicResponse_congr (f : Word → Word → Word) (hl : l.toNat % 2 ^ w.bits = l'.toNat % 2 ^ w.bits)
    (hr : r.toNat % 2 ^ w.bits = r'.toNat % 2 ^ w.bits) : logicResponse f l r w = logicResponse f l' r' w := by
  rw [logicResponse, logicResponse, logicCore, logicCore, mask_congr hl, mask_congr hr]

theorem formatResponse_congr (h : x.toNat % 2 ^ w.bits = x'.toNat % 2 ^ w.bits) :
    formatResponse x w = formatResponse x' w := by
  rw [formatResponse, formatResponse, complementText, complementText, mask_congr h, neg_congr h]

/-- Every operation's result depends on the low `b` bits of its operands alone (R76). -/
theorem instrResult_congr (op : Operation) (t : Word) (hl : l.toNat % 2 ^ w.bits = l'.toNat % 2 ^ w.bits)
    (hr : r.toNat % 2 ^ w.bits = r'.toNat % 2 ^ w.bits) :
    instrResult (op.instr l r t) w = instrResult (op.instr l' r' t) w := by
  cases op with
  | add => exact addResponse_congr hl hr
  | sub => exact subResponse_congr hl hr
  | and | or | xor | nand => exact logicResponse_congr _ hl hr
  | format => exact formatResponse_congr hl

end LowBits

/-- At a legal width an operation answers with its result at that width. -/
theorem exec_instr_of_legal {t : Word} {w : Width} (h : Width.ofTag t = some w) (op : Operation) (l r : Word) (s : State) :
    exec (op.instr l r t) s = .next (s.answer (op.instr l r t) (instrResult (op.instr l r t) w)) := by
  rw [exec_eq_withWidth, Operation.instr_widthTag, withWidth_some h]

/-- Settles O14, by the one result that operands with the same low bits share. -/
theorem bitsAboveTheWidthDoNotMatter : Obligations.BitsAboveTheWidthDoNotMatter := by
  intro op l l' r r' t w s hw hl hr
  refine ⟨_, exec_instr_of_legal hw op l r s, ?_⟩
  rw [instrResult_congr op t hl hr]
  exact exec_instr_of_legal hw op l' r' s

end Machine

end Sys2Proof
end

section
/-! PROOFS. ADD at a legal width (O15): its response in plain arithmetic, each flag by its own rule. -/

namespace Sys2Proof.Machine

/-- The signed reading splits at the sign bit's weight (R73). -/
theorem toSigned_eq_ite (u : Nat) (w : Width) :
    toSigned u w = if u < 2 ^ (w.bits - 1) then (u : Int) else (u : Int) - 2 ^ w.bits := by
  split
  case isTrue hlow => exact toSigned_of_lt hlow
  case isFalse hhigh => exact toSigned_of_ge (not_lt.1 hhigh)

/-- ADD's response: the masked operands' sum modulo `2^b`, its own zero and negative, the carry of the unbounded sum, and overflow
by the signs (R91 to R96, R98). -/
theorem addResponse_eq (l r : Word) (w : Width) :
    let L := l.toNat % 2 ^ w.bits
    let R := r.toNat % 2 ^ w.bits
    let u := (L + R) % 2 ^ w.bits
    addResponse l r w =
      computation (.make (zeroFlag u) (negativeFlag u w) (addOverflow L R u w) (carryFlag (L + R) w)) (numeric u w) w := by
  simp only [addResponse, addCore_eq, mask_toNat, numeric]

/-- A legal ADD answers its response, and nothing else changes (R77, R99). -/
theorem exec_add_of_legal {t : Word} {w : Width} (h : Width.ofTag t = some w) (l r : Word) (s : State) :
    exec (.add l r t) s = .next (s.answer (.add l r t) (addResponse l r w)) :=
  exec_instr_of_legal h .add l r s

/-- Settles O15, by ADD's response in plain arithmetic; zero and the signed reading are the two that the statement spells
otherwise than the model. -/
theorem addAnswers : Obligations.AddAnswers := by
  intro l r t w s hw b L R u v
  have hzero : zeroFlag u = decide (u = 0) := beq_eq_decide u 0
  have hvalue : numeric u w = v := congrArg (NumericResult.mk u) (toSigned_eq_ite u w)
  have hresponse : addResponse l r w =
      computation (.make (decide (u = 0)) (negativeFlag u w) (addOverflow L R u w) (carryFlag (L + R) w)) v w := by
    rw [← hzero, ← hvalue]
    exact addResponse_eq l r w
  rw [exec_add_of_legal hw, hresponse]
  rfl

end Sys2Proof.Machine
end

section
/-! PROOFS. SUB at a legal width (O19): the delegated add of the left operand and the negated right operand, with the subtraction's own
overflow. -/

namespace Sys2Proof.Machine

/-- SUB's response: result, zero, negative and carry are those of the left operand plus the negation `N` of the right one (R112, R116);
overflow compares with the right operand `R` itself (R114). -/
theorem subResponse_eq (l r : Word) (w : Width) :
    let L := l.toNat % 2 ^ w.bits
    let R := r.toNat % 2 ^ w.bits
    let N := (2 ^ w.bits - R) % 2 ^ w.bits
    let u := (L + N) % 2 ^ w.bits
    subResponse l r w =
      computation (.make (zeroFlag u) (negativeFlag u w) (subOverflow L R u w) (carryFlag (L + N) w)) (numeric u w) w := by
  simp only [subResponse, addCore_eq, mask_toNat, neg_toNat, numeric]

/-- A legal SUB answers its response, and nothing else changes (R77, R117). -/
theorem exec_sub_of_legal {t : Word} {w : Width} (h : Width.ofTag t = some w) (l r : Word) (s : State) :
    exec (.sub l r t) s = .next (s.answer (.sub l r t) (subResponse l r w)) :=
  exec_instr_of_legal h .sub l r s

/-- A computation of a result `u`, with zero and the signed reading as comparisons of numbers (R73, R94). -/
theorem computation_eq_of_result (u : Nat) (w : Width) (overflow carry : Bool) :
    let v : NumericResult := ⟨u, if u < 2 ^ (w.bits - 1) then (u : Int) else (u : Int) - 2 ^ w.bits⟩
    computation (.make (zeroFlag u) (negativeFlag u w) overflow carry) (numeric u w) w =
      .computation ⟨decide (u = 0), u.testBit (w.bits - 1), overflow, carry, !carry⟩ v (fmt v w) := by
  intro v
  have hzero : zeroFlag u = decide (u = 0) := beq_eq_decide u 0
  have hvalue : numeric u w = v := congrArg (NumericResult.mk u) (toSigned_eq_ite u w)
  rw [hzero, hvalue]
  rfl

/-- Settles O19, by SUB's response in plain arithmetic: the flags of the delegated sum, and the overflow of the original operands. -/
theorem subAnswers : Obligations.SubAnswers := by
  intro l r t w s hw b L R N u v
  have hresponse : subResponse l r w =
      .computation ⟨decide (u = 0), u.testBit (b - 1), subOverflow L R u w, carryFlag (L + N) w, !carryFlag (L + N) w⟩
        v (fmt v w) :=
    (subResponse_eq l r w).trans (computation_eq_of_result u w _ _)
  rw [exec_sub_of_legal hw, hresponse]
  rfl

end Sys2Proof.Machine
end

section
/-! PROOFS. AND, OR, XOR and NAND at a legal width (O25): the logical core on masked operands, for each of the four functions. -/

namespace Sys2Proof.Machine

/-! The logical core, one equation per operation. AND, OR and XOR work bit by bit, so the second mask changes nothing of masked operands (R130). -/

theorem logicCore_and (l r : Word) (w : Width) :
    logicCore (fun x y => x &&& y) l r w = (l.toNat % 2 ^ w.bits) &&& (r.toNat % 2 ^ w.bits) := by
  rw [logicCore_eq, BitVec.toNat_and, mask_toNat, mask_toNat, Nat.and_mod_two_pow, Nat.mod_mod, Nat.mod_mod]

theorem logicCore_or (l r : Word) (w : Width) :
    logicCore (fun x y => x ||| y) l r w = (l.toNat % 2 ^ w.bits) ||| (r.toNat % 2 ^ w.bits) := by
  rw [logicCore_eq, BitVec.toNat_or, mask_toNat, mask_toNat, Nat.or_mod_two_pow, Nat.mod_mod, Nat.mod_mod]

theorem logicCore_xor (l r : Word) (w : Width) :
    logicCore (fun x y => x ^^^ y) l r w = (l.toNat % 2 ^ w.bits) ^^^ (r.toNat % 2 ^ w.bits) := by
  rw [logicCore_eq, BitVec.toNat_xor, mask_toNat, mask_toNat, Nat.xor_mod_two_pow, Nat.mod_mod, Nat.mod_mod]

/-- The 32-bit complement of a value within `b` bits, masked again, is the complement within `b` bits: `2^b` divides `2^32`. -/
theorem not_toNat_mod_of_lt {x : Word} {w : Width} (h : x.toNat < 2 ^ w.bits) :
    (~~~x).toNat % 2 ^ w.bits = 2 ^ w.bits - 1 - x.toNat := by
  rw [BitVec.toNat_not]
  cases w <;> simp only [Width.bits] at h ⊢ <;> omega

/-- NAND needs the second mask, since its complement sets the bits above the width (R138). -/
theorem logicCore_nand (l r : Word) (w : Width) :
    logicCore (fun x y => ~~~(x &&& y)) l r w =
      2 ^ w.bits - 1 - ((l.toNat % 2 ^ w.bits) &&& (r.toNat % 2 ^ w.bits)) := by
  have hlt : (mask l w &&& mask r w).toNat < 2 ^ w.bits := by
    rw [BitVec.toNat_and]
    exact Nat.and_lt_two_pow _ (mask_toNat_lt r w)
  rw [logicCore_eq, not_toNat_mod_of_lt hlt, BitVec.toNat_and, mask_toNat, mask_toNat]

/-! The response and the next state -/

/-- A logical operation's response is the computation of the core's result, with carry and overflow false (R131, R134). -/
theorem logicResponse_of_logicCore_eq {f : Word → Word → Word} {l r : Word} {w : Width} {u : Nat}
    (h : logicCore f l r w = u) :
    logicResponse f l r w = computation (.make (zeroFlag u) (negativeFlag u w) false false) (numeric u w) w := by
  rw [logicResponse, h]

/-- Settles O25: the four operations answer in one way, each with its own value of the logical core. -/
theorem logicalOperationsAnswer : Obligations.LogicalOperationsAnswer := by
  intro l r t w s hw b L R value result
  have hanswer (op : Operation) (f : Word → Word → Word) (u : Nat)
      (hop : instrResult (op.instr l r t) w = logicResponse f l r w) (hcore : logicCore f l r w = u) :
      exec (op.instr l r t) s = .next { s with answered := s.answered ++ [⟨op.instr l r t, result u⟩] } := by
    have hresponse : logicResponse f l r w = result u :=
      (logicResponse_of_logicCore_eq hcore).trans (computation_eq_of_result u w false false)
    rw [exec_instr_of_legal hw, hop, hresponse]
    rfl
  exact ⟨hanswer .and _ _ rfl (logicCore_and l r w), hanswer .or _ _ rfl (logicCore_or l r w),
    hanswer .xor _ _ rfl (logicCore_xor l r w), hanswer .nand _ _ rfl (logicCore_nand l r w)⟩

end Sys2Proof.Machine
end

section
/-! PROOFS. The formatter: the characters of the binary string (O31), and FORMAT at a legal width (O27). -/

namespace Sys2Proof.Machine

/-! The binary string -/

/-- Character `j` of the binary string shows bit `b-1-j` (R153). -/
theorem binText_getElem? {v b j : Nat} (h : j < b) :
    (binText v b)[j]? = some (if v.testBit (b - 1 - j) then '1' else '0') := by
  rw [binText, List.getElem?_map, List.getElem?_range h, Option.map_some]

/-- Settles O31, by the character at each index; the statement reads a bit as the parity of a quotient. -/
theorem binaryCharacters : Obligations.BinaryCharacters := by
  refine ⟨fun v b => ⟨binText_length v b, fun j hj => ?_⟩, by decide⟩
  rw [binText_getElem? hj, Nat.testBit_eq_decide_div_mod_eq]
  simp only [decide_eq_true_eq]

/-! FORMAT -/

/-- FORMAT's response: the masked value, its text, and the binary string of its two's complement (R156, R157). -/
theorem formatResponse_eq (x : Word) (w : Width) :
    let u := x.toNat % 2 ^ w.bits
    formatResponse x w =
      .formatted (numeric u w) (fmt (numeric u w) w) (binText ((2 ^ w.bits - u) % 2 ^ w.bits) w.bits) := by
  simp only [formatResponse, complementText, mask_toNat, neg_toNat]

/-- A legal FORMAT answers its response, and nothing else changes (R77, R156). -/
theorem exec_format_of_legal {t : Word} {w : Width} (h : Width.ofTag t = some w) (x g : Word) (s : State) :
    exec (.format x g t) s = .next (s.answer (.format x g t) (formatResponse x w)) :=
  exec_instr_of_legal h .format x g s

/-- Settles O27, by FORMAT's response in plain arithmetic; the last clause is R157's other form of the complement string, the
binary string of `neg` itself. -/
theorem formatAnswers : Obligations.FormatAnswers := by
  intro x g t w s hw b u v com
  have hvalue : numeric u w = v := congrArg (NumericResult.mk u) (toSigned_eq_ite u w)
  have hresponse : formatResponse x w = .formatted v (fmt v w) com := by
    rw [← hvalue]
    exact formatResponse_eq x w
  refine ⟨?_, binText_length _ b, ?_⟩
  · rw [exec_format_of_legal hw, hresponse]
    rfl
  · exact congrArg (binText · b) (neg_toNat x w).symm

end Sys2Proof.Machine
end

section
/-! PROOFS. The one error (O36): the width check is the only place where an instruction raises. -/

namespace Sys2Proof.Machine

/-- Two answers to one request in one state are equal only if their responses are. -/
theorem State.answer_right_injective (s : State) (i : Instr) : Function.Injective (s.answer i) := by
  intro r r' h
  have hanswered : s.answered ++ [⟨i, r⟩] = s.answered ++ [⟨i, r'⟩] := congrArg State.answered h
  have hanswer : Answer.mk i r = Answer.mk i r' := List.singleton_inj.1 (List.append_cancel_left hanswered)
  exact congrArg Answer.response hanswer

/-- At a legal width no instruction's result is an error: an error is lawful only at an illegal one. -/
theorem instrResult_ne_error {i : Instr} {w : Width} (hw : Width.ofTag i.widthTag = some w) (c : ErrorCause) :
    instrResult i w ≠ .error c := by
  intro herror
  have hlawful : ResponseLawful i (.error c) := herror ▸ instrResult_lawful hw
  have hnone : Width.ofTag i.widthTag = none := hlawful
  cases hnone.symm.trans hw

/-- An instruction answers `UnsupportedWidth` exactly where the width lookup fails (R77, R180). -/
theorem ofTag_eq_none_iff_exec_eq_error (i : Instr) (s : State) :
    Width.ofTag i.widthTag = none ↔ exec i s = .next (s.answer i (.error .unsupportedWidth)) := by
  rcases exec_cases i s with ⟨hnone, hexec⟩ | ⟨w, hw, hexec⟩
  · exact iff_of_true hnone hexec
  · refine iff_of_false (fun hnone => ?_) (fun herror => ?_)
    · cases hnone.symm.trans hw
    · have hnext := Host.Outcome.next.inj (hexec.symm.trans herror)
      exact instrResult_ne_error hw _ (s.answer_right_injective i hnext)

/-- Settles O36: the illegal tags are those where the lookup fails (O9), and there alone an instruction raises. -/
theorem illegalWidthIsTheOneError : Obligations.IllegalWidthIsTheOneError := by
  obtain ⟨-, hillegal, -⟩ := widthLookupIsTheClosedSet
  exact ⟨fun i s => (hillegal i.widthTag).symm.trans (ofTag_eq_none_iff_exec_eq_error i s), rfl⟩

end Sys2Proof.Machine
end

section
/-! PROOFS. The request word both ways (O1, O2, O3): an instruction's fields come back from its request word, and a word that decodes
is the encoding of what it decodes to. -/

namespace Sys2Proof

/-! Decoding what was encoded -/

/-- The facts of R50 and R55 about every instruction, from those about each constructor. -/
theorem Laws.fieldsPlaced (i : Instr) : Laws.FieldsPlaced.Statement i := by
  cases i with
  | add l r t => exact Laws.FieldsPlaced.add l r t
  | sub l r t => exact Laws.FieldsPlaced.sub l r t
  | and l r t => exact Laws.FieldsPlaced.and l r t
  | or l r t => exact Laws.FieldsPlaced.or l r t
  | xor l r t => exact Laws.FieldsPlaced.xor l r t
  | nand l r t => exact Laws.FieldsPlaced.nand l r t
  | format v g t => exact Laws.FieldsPlaced.format v g t

/-- The decoder on the fields of a word: a code that an operation has, and zero reserved bits (R51 to R55). -/
theorem decode_of_fields {q : ReqWord} {op : Operation} (hop : Operation.ofCode (Request.unpack q).op = some op)
    (hrsv : (Request.unpack q).rsv = 0) :
    decode q = .instr
      (op.instr (Request.unpack q).left (Request.unpack q).right (Request.unpack q).widthTag) := by
  simp only [decode, hop, hrsv, if_pos]

theorem decode_encode (i : Instr) : decode (encode i) = .instr i := by
  obtain ⟨hunpack, hrsv, hcode, hinstr⟩ := Laws.fieldsPlaced i
  rw [← hunpack] at hrsv hcode
  rw [decode_of_fields hcode hrsv, hunpack]
  exact congrArg Decoded.instr hinstr

/-- Two instructions never share a request word. -/
theorem encode_injective : Function.Injective encode := by
  intro i j h
  have hdecoded : Decoded.instr i = .instr j := by rw [← decode_encode i, ← decode_encode j, h]
  exact Decoded.instr.inj hdecoded

/-! Encoding what was decoded -/

/-- The five fields of R50 leave no bit of the request word out. -/
theorem pack_unpack (q : ReqWord) : (Request.unpack q).pack = q := by
  refine BitVec.eq_of_getLsbD_eq fun k hk => ?_
  simp only [Request.pack, Request.unpack, BitVec.getLsbD_append, BitVec.getLsbD_extractLsb']
  split_ifs with hop hrsv htag hright
  · simp [hop]
  · simp [hrsv, show 3 + (k - 3) = k by omega]
  · simp [show k - 3 - 29 < 32 by omega, show 32 + (k - 3 - 29) = k by omega]
  · simp [show k - 3 - 29 - 32 < 32 by omega, show 64 + (k - 3 - 29 - 32) = k by omega]
  · simp [show k - 3 - 29 - 32 - 32 < 32 by omega, show 96 + (k - 3 - 29 - 32 - 32) = k by omega]

/-- A word with the code of an operation and zero reserved bits is the request word of that operation on its fields. -/
theorem encode_instr_unpack {q : ReqWord} {op : Operation} (hop : q.extractLsb' 0 3 = op.code)
    (hrsv : q.extractLsb' 3 29 = 0#29) :
    encode (op.instr (q.extractLsb' 96 32) (q.extractLsb' 64 32) (q.extractLsb' 32 32)) = q := by
  have hrequest : (op.instr (q.extractLsb' 96 32) (q.extractLsb' 64 32) (q.extractLsb' 32 32)).request =
      Request.unpack q := by
    simp only [Instr.request, Operation.instr_left, Operation.instr_right, Operation.instr_widthTag,
      Operation.instr_operation, Request.unpack, hop, hrsv]
    rfl
  rw [encode, hrequest, pack_unpack]

/-- Everything the decoder can do: find a mark of R59, or find an operation's code with zero reserved bits. -/
theorem decode_cases (q : ReqWord) :
    (∃ why, decode q = .reserved why) ∨ ∃ i, decode q = .instr i ∧ encode i = q := by
  by_cases hmark : q.extractLsb' 0 3 = 0b111#3 ∨ q.extractLsb' 3 29 ≠ 0#29
  · exact .inl (exists_decode_eq_reserved hmark)
  · obtain ⟨hop, hrsv⟩ := not_or.1 hmark
    obtain ⟨op, hcode⟩ := Operation.exists_code_eq hop
    exact .inr ⟨_, decode_of_code hcode (not_not.1 hrsv), encode_instr_unpack hcode (not_not.1 hrsv)⟩

theorem encode_of_decode {q : ReqWord} {i : Instr} (h : decode q = .instr i) : encode i = q := by
  rcases decode_cases q with ⟨why, hd⟩ | ⟨j, hd, hencode⟩
  · cases hd.symm.trans h
  · cases hd.symm.trans h
    exact hencode

namespace Machine

/-- Settles O1, by the places of the fields. -/
theorem decodeOfEncodeIsIdentity : Obligations.DecodeOfEncodeIsIdentity :=
  fun i _ => decode_encode i

/-- Settles O2, by the fields covering the whole word. -/
theorem encodeOfDecodeIsIdentity : Obligations.EncodeOfDecodeIsIdentity :=
  fun _ _ => encode_of_decode

/-- Settles O3, by running the decoder on the six words. -/
theorem wordsOfTheSpecDecode : Obligations.WordsOfTheSpecDecode := by
  unfold Obligations.WordsOfTheSpecDecode
  decide

end Machine

end Sys2Proof
end

section
/-! PROOFS. A step against `Eval` (O37, O38, O39, O40, O41, O42, O44, O45, O46): every instruction has one response, `Eval` gives its
request word that response, and a step adds it to the response port. -/

namespace Sys2Proof.Machine

/-! The response of an instruction -/

/-- The response of an instruction, at any width tag (R77): an error at an illegal one, and its result at a legal one. -/
def instrResponse (i : Instr) : Response :=
  match Width.ofTag i.widthTag with
  | none => .error .unsupportedWidth
  | some w => instrResult i w

theorem instrResponse_of_illegal {i : Instr} (h : Width.ofTag i.widthTag = none) :
    instrResponse i = .error .unsupportedWidth := by
  simp only [instrResponse, h]

theorem instrResponse_of_legal {i : Instr} {w : Width} (h : Width.ofTag i.widthTag = some w) :
    instrResponse i = instrResult i w := by
  simp only [instrResponse, h]

/-- Every instruction answers its response, in every state, and does nothing else. -/
theorem exec_eq_answer (i : Instr) (s : State) : exec i s = .next (s.answer i (instrResponse i)) := by
  rcases exec_cases i s with ⟨hw, he⟩ | ⟨w, hw, he⟩
  · rw [he, instrResponse_of_illegal hw]
  · rw [he, instrResponse_of_legal hw]

/-- The one response that an instruction adds to the port is its own. -/
theorem answer_of_exec {i : Instr} {s t : State} {a : Answer} (h : exec i s = .next t)
    (ha : t.answered = s.answered ++ [a]) : a = ⟨i, instrResponse i⟩ := by
  cases (exec_eq_answer i s).symm.trans h
  exact (List.singleton_inj.1 (List.append_cancel_left ha)).symm

/-- An instruction's response is lawful for its request, at every width tag. -/
theorem instrResponse_lawful (i : Instr) : ResponseLawful i (instrResponse i) := by
  cases hw : Width.ofTag i.widthTag with
  | none =>
    rw [instrResponse_of_illegal hw]
    exact hw
  | some w =>
    rw [instrResponse_of_legal hw]
    exact instrResult_lawful hw

/-- Settles O37: the one response is the instruction's, and a lawful response has the right kind. -/
theorem everyInstructionAnswersOnce : Obligations.EveryInstructionAnswersOnce := by
  intro i s
  have hlawful := instrResponse_lawful i
  refine ⟨instrResponse i, exec_eq_answer i s, ?_⟩
  generalize instrResponse i = r at hlawful ⊢
  cases r with
  | computation f v x =>
    obtain ⟨hop, w, hw, -⟩ := hlawful
    exact ⟨hop, by simp [hw]⟩
  | formatted v x com =>
    obtain ⟨hop, w, hw, -⟩ := hlawful
    exact ⟨hop, by simp [hw]⟩
  | error c => exact hlawful

/-! `Eval` on a request word -/

/-- `Eval` refuses a word with a mark of R59. -/
theorem eval_of_reserved {q : ReqWord} (h : q.extractLsb' 0 3 = 0b111#3 ∨ q.extractLsb' 3 29 ≠ 0#29) :
    eval q = .refused := by
  simp only [eval]
  exact if_pos h

/-- `Eval` makes the width check and then dispatches by the operation code, as the instruction does (R35). -/
theorem eval_of_code {q : ReqWord} {op : Operation} (hop : q.extractLsb' 0 3 = op.code)
    (hrsv : q.extractLsb' 3 29 = 0#29) :
    eval q = .respond
      (instrResponse (op.instr (q.extractLsb' 96 32) (q.extractLsb' 64 32) (q.extractLsb' 32 32))) := by
  have hassigned : ¬(op.code = 0b111 ∨ (0 : BitVec 29) ≠ 0) := by cases op <;> decide
  have hrsv' : q.extractLsb' 3 29 = 0 := hrsv
  simp only [eval, hop, hrsv', if_neg hassigned]
  cases hw : Width.ofTag (q.extractLsb' 32 32) with
  | none => rw [instrResponse_of_illegal ((congrArg _ (op.instr_widthTag _ _ _)).trans hw)]
  | some w =>
    rw [instrResponse_of_legal ((congrArg _ (op.instr_widthTag _ _ _)).trans hw)]
    cases op <;> rfl

/-- `Eval` gives the request word of an instruction that instruction's response. -/
theorem eval_encode (i : Instr) : eval (encode i) = .respond (instrResponse i) := by
  have hd := decode_encode i
  by_cases hmark : (encode i).extractLsb' 0 3 = 0b111#3 ∨ (encode i).extractLsb' 3 29 ≠ 0#29
  · obtain ⟨why, hreserved⟩ := exists_decode_eq_reserved hmark
    cases hreserved.symm.trans hd
  · obtain ⟨hop, hrsv⟩ := not_or.1 hmark
    obtain ⟨op, hcode⟩ := Operation.exists_code_eq hop
    rw [eval_of_code hcode (not_not.1 hrsv)]
    rw [Decoded.instr.inj ((decode_of_code hcode (not_not.1 hrsv)).symm.trans hd)]

/-- Everything `Eval` can do, beside what the decoder does. -/
theorem eval_cases (q : ReqWord) :
    (∃ why, decode q = .reserved why ∧ eval q = .refused) ∨
      ∃ i, decode q = .instr i ∧ encode i = q ∧ eval q = .respond (instrResponse i) := by
  by_cases hmark : q.extractLsb' 0 3 = 0b111#3 ∨ q.extractLsb' 3 29 ≠ 0#29
  · obtain ⟨why, hd⟩ := exists_decode_eq_reserved hmark
    exact .inl ⟨why, hd, eval_of_reserved hmark⟩
  · obtain ⟨i, hd⟩ := exists_decode_eq_instr hmark
    exact .inr ⟨i, hd, encode_of_decode hd, encode_of_decode hd ▸ eval_encode i⟩

/-! One step -/

/-- A step on a request that decodes adds that instruction's response to the port. -/
theorem step_of_takeRequest {s s' : State} {q : ReqWord} {i : Instr} (ht : s.takeRequest = some (q, s'))
    (hd : decode q = .instr i) : step s = .next (s'.answer i (instrResponse i)) :=
  (step_of_decode_instr ht hd).trans (exec_eq_answer i s')

/-- Settles O41, by the two things that `Eval` and the decoder can do. -/
theorem stepRefinesEval : Obligations.StepRefinesEval := by
  intro s s' q ht
  rcases eval_cases q with ⟨why, hd, he⟩ | ⟨i, hd, -, he⟩
  · rw [he]
    exact ⟨why, hd, step_of_decode_reserved ht hd⟩
  · rw [he]
    exact ⟨i, hd, step_of_takeRequest ht hd⟩

/-- Settles O38, by the step's equation on a word that decodes. -/
theorem stepRunsTheDecodedInstruction : Obligations.StepRunsTheDecodedInstruction :=
  ⟨fun _ _ _ _ ht hd _ => step_of_decode_instr ht hd, fun _ _ => takeRequest_of_alone⟩

theorem takeRequest_of_idle {s : State} (h : s.pending = []) : s.takeRequest = none := by
  simp only [State.takeRequest, State.takeRequestBy, h]

theorem step_of_idle {s : State} (h : s.pending = []) : step s = .next s := by
  simp only [step, takeRequest_of_idle h]

/-- Settles O40, by what a step does when nothing is taken. -/
theorem idleStepChangesNothing : Obligations.IdleStepChangesNothing :=
  fun _ => step_of_idle

/-- Settles O42: where a request waits alone, the same one is taken in both states. -/
theorem outcomeDependsOnTheRequestAlone : Obligations.OutcomeDependsOnTheRequestAlone := by
  intro s s' q hs hs'
  have ht := takeRequest_of_alone hs
  have ht' := takeRequest_of_alone hs'
  rcases decode_cases q with ⟨why, hd⟩ | ⟨i, hd, -⟩
  · exact .inr ⟨_, step_of_decode_reserved ht hd, step_of_decode_reserved ht' hd⟩
  · exact .inl ⟨⟨i, instrResponse i⟩, step_of_takeRequest ht hd, step_of_takeRequest ht' hd⟩

/-- Taking the `k`th of a list leaves a list that it completes, up to order. -/
theorem perm_cons_eraseIdx {l : List ReqWord} {k : Nat} {q : ReqWord} (h : l[k]? = some q) :
    l.Perm (q :: l.eraseIdx k) := by
  obtain ⟨hk, rfl⟩ := List.getElem?_eq_some_iff.1 h
  exact (List.getElem_cons_eraseIdx_perm hk).symm

/-- A request that is taken is one of the waiting ones, and the others go on waiting. -/
theorem takeRequest_pending {s s' : State} {q : ReqWord} (h : s.takeRequest = some (q, s')) :
    s.pending.Perm (q :: s'.pending) := by
  rcases takeRequest_cases s with ⟨-, ht⟩ | ⟨_, hp, ht⟩ | ⟨k, _, -, hk, ht, -⟩
  · cases ht.symm.trans h
  · cases ht.symm.trans h
    rw [hp]
  · cases ht.symm.trans h
    exact perm_cons_eraseIdx hk

/-- Where a request waits, one is taken. -/
theorem exists_takeRequest {s : State} (h : s.pending ≠ []) : ∃ q s', s.takeRequest = some (q, s') := by
  rcases takeRequest_cases s with ⟨hp, -⟩ | ⟨_, -, ht⟩ | ⟨_, _, -, -, ht, -⟩
  · exact absurd hp h
  · exact ⟨_, _, ht⟩
  · exact ⟨_, _, ht⟩

/-- Settles O39, whatever the order of service. -/
theorem exactlyOneRequestIsTaken : Obligations.ExactlyOneRequestIsTaken := by
  intro s hs
  obtain ⟨q, s', ht⟩ := exists_takeRequest hs
  exact ⟨q, s', ht, takeRequest_pending ht, takeRequest_answered ht⟩

/-- Everything a step that goes on can do to the two ports: nothing, when no request waits, or move one waiting request over to
the response port, with its response beside it. -/
theorem step_eq_next_cases {s t : State} (h : step s = .next t) :
    (s.pending = [] ∧ t = s) ∨
      ∃ i s', s.takeRequest = some (encode i, s') ∧ s.pending.Perm (encode i :: s'.pending) ∧
        t = s'.answer i (instrResponse i) := by
  rcases step_cases s with ⟨hnone, hstep⟩ | ⟨_, _, _, -, -, hstep⟩ | ⟨q, s', i, ht, hd, -⟩
  · refine .inl ⟨?_, Host.Outcome.next.inj (h.symm.trans hstep)⟩
    by_contra hne
    obtain ⟨_, _, ht⟩ := exists_takeRequest hne
    cases hnone.symm.trans ht
  · cases hstep.symm.trans h
  · cases (step_of_takeRequest ht hd).symm.trans h
    cases encode_of_decode hd
    exact .inr ⟨i, s', ht, takeRequest_pending ht, rfl⟩

/-! The invariant that every outstanding response is `Eval` of its own request -/

/-- One more instruction's response keeps the port exact. -/
theorem PortsExact.answer {s : State} (hs : PortsExact s) (i : Instr) :
    PortsExact (s.answer i (instrResponse i)) := by
  intro a ha
  rw [State.answer_answered, List.mem_append, List.mem_singleton] at ha
  rcases ha with ha | rfl
  · exact hs a ha
  · exact eval_encode i

theorem step_keeps_portsExact {s t : State} (hs : PortsExact s) (h : step s = .next t) : PortsExact t := by
  rcases step_eq_next_cases h with ⟨-, rfl⟩ | ⟨i, s', ht, -, rfl⟩
  · exact hs
  · have hs' : PortsExact s' := fun a ha => hs a (takeRequest_answered ht ▸ ha)
    exact hs'.answer i

/-- Settles O44, by what a step can do to the response port. -/
theorem stepKeepsPortsExact : Obligations.StepKeepsPortsExact :=
  fun _ _ => step_keeps_portsExact

/-! Reset -/

/-- With no response outstanding both invariants hold. -/
theorem ports_of_answered_eq_nil {s : State} (h : s.answered = []) : PortsLawful s ∧ PortsExact s := by
  simp [PortsLawful, PortsExact, h]

/-- Settles O45, since both resets leave the two ports empty. -/
theorem resetEstablishesThePorts : Obligations.ResetEstablishesThePorts :=
  ⟨⟨rfl, rfl, ports_of_answered_eq_nil rfl⟩, fun _ => ⟨rfl, rfl, ports_of_answered_eq_nil rfl⟩⟩

/-- Settles O46: a request issued after a reset waits alone, and its response stands alone on the port. -/
theorem firstRequestAfterReset : Obligations.FirstRequestAfterReset := by
  intro s q
  have ht := takeRequest_of_alone (s := s.applyReset.issue q) (q := q) rfl
  rcases eval_cases q with ⟨why, hd, he⟩ | ⟨i, hd, -, he⟩
  · rw [he]
    exact ⟨why, step_of_decode_reserved ht hd⟩
  · rw [he]
    exact ⟨_, i, step_of_takeRequest ht hd, hd, rfl, rfl⟩

end Sys2Proof.Machine
end

section
/-! PROOFS. Progress (O47, O48, O50, O52): a step from a state whose waiting requests are all well-formed answers one of them, and the
oldest waits for no more than a number of steps. -/

namespace Sys2Proof.Machine

/-! One step of an answerable state -/

/-- The answer to an instruction: its response beside its request. -/
def answerTo (i : Instr) : Answer := ⟨i, instrResponse i⟩

/-- An answer is exactly what `Eval` gives its request word. -/
theorem eval_answerTo {served : List Instr} {a : Answer} (ha : a ∈ served.map answerTo) :
    eval (encode a.request) = .respond a.response := by
  obtain ⟨i, -, rfl⟩ := List.mem_map.1 ha
  exact eval_encode i

/-- The request words of some answers are those of their instructions. -/
theorem map_encode_answerTo (served : List Instr) :
    ((served.map answerTo).map fun a => encode a.request) = served.map encode := by
  rw [List.map_map]
  rfl

/-- A well-formed request word is the encoding of an instruction (R203). -/
theorem exists_encode_eq_of_wellFormed {q : ReqWord} (h : (Request.unpack q).wellFormed = true) :
    ∃ i, decode q = .instr i ∧ encode i = q := by
  have hassigned : ¬(q.extractLsb' 0 3 = 0b111#3 ∨ q.extractLsb' 3 29 ≠ 0#29) := by
    simpa [Request.wellFormed, Request.opAssigned, Request.rsvZero, Request.unpack] using h
  obtain ⟨i, hd⟩ := exists_decode_eq_instr hassigned
  exact ⟨i, hd, encode_of_decode hd⟩

/-- Fewer waiting requests are no less answerable. -/
theorem AllAnswerable.of_perm_cons {s t : State} {q : ReqWord} (hs : AllAnswerable s)
    (hp : s.pending.Perm (q :: t.pending)) : AllAnswerable t :=
  fun _ hq => hs _ (hp.mem_iff.2 (List.mem_cons_of_mem _ hq))

/-- The request that an answerable state takes is an instruction's, and the step answers it. -/
theorem step_of_answerable {s s' : State} {q : ReqWord} (hs : AllAnswerable s) (ht : s.takeRequest = some (q, s')) :
    ∃ i, encode i = q ∧ step s = .next (s'.answer i (instrResponse i)) := by
  have hq : q ∈ s.pending := (takeRequest_pending ht).mem_iff.2 List.mem_cons_self
  obtain ⟨i, hd, hencode⟩ := exists_encode_eq_of_wellFormed (hs q hq)
  exact ⟨i, hencode, step_of_takeRequest ht hd⟩

/-- Everything a step can do from an answerable state: nothing when no request waits, or answer one of the waiting requests; what
it ends in is answerable too. -/
theorem answerable_step_cases {s : State} (hs : AllAnswerable s) :
    (s.pending = [] ∧ step s = .next s) ∨
      ∃ i t, step s = .next t ∧ AllAnswerable t ∧ s.pending.Perm (encode i :: t.pending) ∧
        t.answered = s.answered ++ [answerTo i] := by
  by_cases hidle : s.pending = []
  · exact .inl ⟨hidle, step_of_idle hidle⟩
  · obtain ⟨q, s', ht⟩ := exists_takeRequest hidle
    obtain ⟨i, rfl, hstep⟩ := step_of_answerable hs ht
    have hpending := takeRequest_pending ht
    refine .inr ⟨i, _, hstep, hs.of_perm_cons hpending, hpending, ?_⟩
    rw [State.answer_answered, takeRequest_answered ht, answerTo]

/-! Runs of an answerable state -/

theorem run_succ_of_step {s t : State} (h : step s = .next t) (k : Nat) :
    Host.Core.run core (k + 1) s = Host.Core.run core k t := by
  have hcore : core.step s = .next t := h
  simp only [Host.Core.run, hcore]

/-- No number of steps from an answerable state is stopped. -/
theorem exists_run_of_answerable (k : Nat) :
    ∀ {s : State}, AllAnswerable s → ∃ t, Host.Core.run core k s = .next t := by
  induction k with
  | zero => exact fun {s} _ => ⟨s, rfl⟩
  | succ k ih =>
    intro s hs
    rcases answerable_step_cases hs with ⟨-, hstep⟩ | ⟨i, t, hstep, ht, -⟩
    · rw [run_succ_of_step hstep]
      exact ih hs
    · rw [run_succ_of_step hstep]
      exact ih ht

/-- Settles O52, by induction on the number of steps: each keeps the waiting requests well-formed. -/
theorem wellFormedRequestsNeverStopTheBlock : Obligations.WellFormedRequestsNeverStopTheBlock :=
  fun _ hs k => exists_run_of_answerable k hs

/-- As many steps as there are requests answer each of them once, in some order. -/
theorem exists_run_answers_all (n : Nat) : ∀ {s : State}, AllAnswerable s → s.pending.length = n →
    ∃ (t : State) (served : List Instr), Host.Core.run core n s = .next t ∧ t.pending = [] ∧
      t.answered = s.answered ++ served.map answerTo ∧ (served.map encode).Perm s.pending := by
  induction n with
  | zero =>
    intro s _ hn
    have hidle := List.length_eq_zero_iff.1 hn
    exact ⟨s, [], rfl, hidle, by simp, by simp [hidle]⟩
  | succ n ih =>
    intro s hs hn
    rcases answerable_step_cases hs with ⟨hidle, -⟩ | ⟨i, s', hstep, hs', hpending, hanswered⟩
    · simp [hidle] at hn
    · have hn' : s'.pending.length = n := by simpa [hn] using hpending.length_eq.symm
      obtain ⟨t, served, hrun, ht, hnew, hperm⟩ := ih hs' hn'
      refine ⟨t, i :: served, (run_succ_of_step hstep n).trans hrun, ht, ?_, ?_⟩
      · rw [hnew, hanswered, List.map_cons, List.append_assoc, List.singleton_append]
      · exact (hperm.cons (encode i)).trans hpending.symm

/-- Settles O47, by induction on the number of waiting requests. -/
theorem everyRequestIsAnswered : Obligations.EveryRequestIsAnswered := by
  intro s hs
  obtain ⟨t, served, hrun, ht, hnew, hperm⟩ := exists_run_answers_all _ hs rfl
  refine ⟨t, served.map answerTo, hrun, ht, hnew, ?_, fun a => eval_answerTo⟩
  rwa [map_encode_answerTo]

/-- Settles O50: both runs answer the same requests up to order, and a request word tells its instruction and so its answer. -/
theorem orderOfRequestsDoesNotMatter : Obligations.OrderOfRequestsDoesNotMatter := by
  intro s s' hs hperm
  have hs' : AllAnswerable s' := fun q hq => hs q (hperm.mem_iff.2 hq)
  obtain ⟨t, served, hrun, -, hnew, hserved⟩ := exists_run_answers_all _ hs rfl
  obtain ⟨t', served', hrun', -, hnew', hserved'⟩ := exists_run_answers_all _ hs' rfl
  have hencoded : (served.map encode).Perm (served'.map encode) := (hserved.trans hperm).trans hserved'.symm
  have hinstrs : served.Perm served' := (List.map_perm_map_iff encode_injective).1 hencoded
  exact ⟨t, t', _, _, hrun, hrun', hnew, hnew', hinstrs.map answerTo⟩

/-! Rounds of issues and a step -/

/-- Issuing some requests adds them to the waiting ones; the responses and the count of choices stay, and so does the mark of the
oldest request if one waited. -/
theorem foldl_issue (qs : List ReqWord) : ∀ s : State,
    (qs.foldl State.issue s).pending = s.pending ++ qs ∧ (qs.foldl State.issue s).answered = s.answered ∧
      (qs.foldl State.issue s).draws = s.draws ∧
      (s.pending ≠ [] → (qs.foldl State.issue s).oldestSince = s.oldestSince) := by
  induction qs with
  | nil => simp
  | cons q qs ih =>
    intro s
    obtain ⟨hpending, hanswered, hdraws, holdest⟩ := ih (s.issue q)
    refine ⟨by simp [hpending], by simp [hanswered], by simp [hdraws], fun hs => ?_⟩
    rw [List.foldl_cons, holdest (by simp), State.issue_oldestSince, if_neg hs]

theorem rounds_succ_of_step {issues : Nat → List ReqWord} {s t : State}
    (h : step ((issues 0).foldl State.issue s) = .next t) (n : Nat) :
    rounds issues (n + 1) s = rounds (fun k => issues (k + 1)) n t := by
  simp only [rounds, h]

/-- What taking a request does to those of them that stand first on the port: one of these is taken, or a later one is, which is
one choice more of those that patience allows. -/
theorem takeRequest_of_append {s : State} {old later : List ReqWord} (hp : s.pending = old ++ later) (hold : old ≠ []) :
    ∃ q s' old' later', s.takeRequest = some (q, s') ∧ s'.pending = old' ++ later' ∧
      (old.Perm (q :: old') ∨
        old' = old ∧ s'.draws = s.draws + 1 ∧ s'.oldestSince = s.oldestSince ∧
          s.draws < s.oldestSince + Config.patience s.oldestSince) := by
  have hpos : 0 < old.length := List.length_pos_iff.2 hold
  rcases takeRequest_cases s with ⟨hnone, -⟩ | ⟨q, hone, ht⟩ | ⟨k, q, -, hq, ht, hdue⟩
  · simp [hnone, hold] at hp
  · obtain ⟨rfl, rfl⟩ : old = [q] ∧ later = [] := by
      rcases List.append_eq_singleton_iff.1 (hp.symm.trans hone) with ⟨rfl, -⟩ | h
      · exact absurd rfl hold
      · exact h
    exact ⟨q, _, [], [], ht, rfl, .inl (List.Perm.refl _)⟩
  · rcases Nat.lt_or_ge k old.length with hk | hk
    · refine ⟨q, _, old.eraseIdx k, later, ht, ?_, .inl (perm_cons_eraseIdx ?_)⟩
      · rw [State.serve_pending, hp, List.eraseIdx_append_of_lt_length hk]
      · rw [← hq, hp, List.getElem?_append_left hk]
    · have hk0 : k ≠ 0 := by omega
      refine ⟨q, _, old, later.eraseIdx (k - old.length), ht, ?_, .inr ⟨rfl, rfl, ?_, ?_⟩⟩
      · rw [State.serve_pending, hp, List.eraseIdx_append_of_length_le hk]
      · rw [State.serve_oldestSince, if_neg hk0]
      · have hnot : s.oldestDueBy Config.patience ≠ true := fun h => hk0 (hdue h)
        simpa [State.oldestDueBy] using hnot

/-- Whatever hosts go on issuing, the requests that stand first on the port are all answered in some number of rounds: each round
answers one of them, or uses up one of the choices that are left before the oldest has its turn. -/
theorem exists_rounds_answer (old : List ReqWord) (issues : Nat → List ReqWord) (s : State) (later : List ReqWord)
    (hp : s.pending = old ++ later) (hs : AllAnswerable s)
    (hissues : ∀ k, ∀ q ∈ issues k, (Request.unpack q).wellFormed = true) :
    ∃ (n : Nat) (t : State) (served : List Instr), rounds issues n s = .next t ∧ t.answered = s.answered ++ served.map answerTo ∧
      old.Subperm (served.map encode) := by
  by_cases hold : old = []
  · exact ⟨0, s, [], rfl, by simp, by simp [hold]⟩
  obtain ⟨hpending, hanswered, hdraws, holdest⟩ := foldl_issue (issues 0) s
  have hwaits : s.pending ≠ [] := by simp [hp, hold]
  have hissued : AllAnswerable ((issues 0).foldl State.issue s) := by
    intro q hq
    rw [hpending, List.mem_append] at hq
    exact hq.elim (hs q) (hissues 0 q)
  have hp' : ((issues 0).foldl State.issue s).pending = old ++ (later ++ issues 0) := by
    rw [hpending, hp, List.append_assoc]
  obtain ⟨q, s', old', later', htake, hrest, hserved⟩ := takeRequest_of_append hp' hold
  obtain ⟨i, rfl, hstep⟩ := step_of_answerable hissued htake
  have hmeasure : Prod.Lex (· < ·) (· < ·)
      (old'.length, s'.oldestSince + Config.patience s'.oldestSince - s'.draws)
      (old.length, s.oldestSince + Config.patience s.oldestSince - s.draws) := by
    rcases hserved with hperm | ⟨rfl, hdraw, hsince, hleft⟩
    · exact .left _ _ (by simp [hperm.length_eq])
    · rw [holdest hwaits] at hsince hleft
      rw [hdraws] at hdraw hleft
      refine .right _ ?_
      rw [hsince, hdraw]
      omega
  obtain ⟨n, t, served, hrounds, hnew, hsub⟩ := exists_rounds_answer old' (fun k => issues (k + 1))
    (s'.answer i (instrResponse i)) later' hrest (hissued.of_perm_cons (t := s') (takeRequest_pending htake))
    (fun k => hissues (k + 1))
  refine ⟨n + 1, t, i :: served, (rounds_succ_of_step hstep n).trans hrounds, ?_, ?_⟩
  · rw [hnew, State.answer_answered, takeRequest_answered htake, hanswered, List.append_assoc]
    rfl
  · rcases hserved with hperm | ⟨rfl, -⟩
    · exact hperm.subperm.trans ((List.subperm_cons _).2 hsub)
    · exact hsub.cons_right _
termination_by (old.length, s.oldestSince + Config.patience s.oldestSince - s.draws)
decreasing_by exact hmeasure

/-- Settles O48, for the requests that waited at first. -/
theorem noRequestWaitsForEver : Obligations.NoRequestWaitsForEver := by
  intro issues s hs hissues
  obtain ⟨n, t, served, hrounds, hnew, hsub⟩ := exists_rounds_answer s.pending issues s [] (by simp) hs hissues
  refine ⟨n, t, served.map answerTo, hrounds, hnew, ?_, fun a => eval_answerTo⟩
  rwa [map_encode_answerTo]

end Sys2Proof.Machine
end

section
/-! PROOFS. Histories (O51): what one event does, an invariant that every event keeps, and where a history is cut in two. -/

namespace Sys2Proof.Machine

/-! One event of a history -/

/-- What one event does: the responses that hosts receive by it, and the state after it. -/
def HostEvent.effect (s : State) : HostEvent → Option (List Answer × State)
  | .issue q => some ([], s.issue q)
  | .step =>
    match Machine.step s with
    | .next t => some ([], t)
    | .fault _ => none
    | .refused _ => none
  | .collect n => (s.collect n).map fun p => ([p.1], p.2)
  | .reset => some ([], s.applyReset)

/-- A history is its first event and then the rest of it, from the state after that event. -/
theorem history_cons_iff (e : HostEvent) (es : List HostEvent) (s t : State) (got : List Answer) :
    history (e :: es) s = some (got, t) ↔
      ∃ got₁ s₁ got₂, e.effect s = some (got₁, s₁) ∧ history es s₁ = some (got₂, t) ∧ got = got₁ ++ got₂ := by
  cases e with
  | issue q => simp [history, HostEvent.effect]
  | step => cases hstep : Machine.step s <;> simp [history, HostEvent.effect, hstep]
  | collect n =>
    cases hcollect : s.collect n with
    | none => simp [history, HostEvent.effect, hcollect]
    | some p => simp [history, HostEvent.effect, hcollect, eq_comm]
  | reset => simp [history, HostEvent.effect]

/-- A history of two parts is the one part and then the other. -/
theorem history_append {es₁ es₂ : List HostEvent} : ∀ {s t : State} {got : List Answer},
    history (es₁ ++ es₂) s = some (got, t) →
      ∃ got₁ s₁ got₂, history es₁ s = some (got₁, s₁) ∧ history es₂ s₁ = some (got₂, t) ∧ got = got₁ ++ got₂ := by
  induction es₁ with
  | nil => exact fun {s t got} h => ⟨[], s, got, rfl, h, rfl⟩
  | cons e es₁ ih =>
    intro s t got h
    rw [List.cons_append] at h
    obtain ⟨got₀, s₀, rest, heffect, hrest, rfl⟩ := (history_cons_iff e _ s t got).1 h
    obtain ⟨got₁, s₁, got₂, h₁, h₂, rfl⟩ := ih hrest
    exact ⟨got₀ ++ got₁, s₁, got₂, (history_cons_iff e es₁ s s₁ _).2 ⟨got₀, s₀, got₁, heffect, h₁, rfl⟩, h₂,
      (List.append_assoc _ _ _).symm⟩

/-! The invariant -/

/-- An answer is exactly `Eval` of its own request, and that request is one of `Issued`. -/
def AnswerSound (Issued : ReqWord → Prop) (a : Answer) : Prop :=
  eval (encode a.request) = .respond a.response ∧ Issued (encode a.request)

/-- Every waiting request is one of `Issued`, and so is that of every outstanding response, which is `Eval` of it. -/
def PortsSound (Issued : ReqWord → Prop) (s : State) : Prop :=
  (∀ q ∈ s.pending, Issued q) ∧ ∀ a ∈ s.answered, AnswerSound Issued a

/-- Empty ports are sound. -/
theorem portsSound_of_empty {s : State} (Issued : ReqWord → Prop) (hp : s.pending = []) (ha : s.answered = []) :
    PortsSound Issued s := by
  simp [PortsSound, hp, ha]

section
variable {Issued : ReqWord → Prop}

theorem PortsSound.issue {s : State} {q : ReqWord} (hs : PortsSound Issued s) (hq : Issued q) :
    PortsSound Issued (s.issue q) := by
  refine ⟨fun p hp => ?_, hs.2⟩
  rw [State.issue_pending, List.mem_append, List.mem_singleton] at hp
  rcases hp with hp | rfl
  · exact hs.1 p hp
  · exact hq

theorem PortsSound.step {s t : State} (hs : PortsSound Issued s) (h : step s = .next t) : PortsSound Issued t := by
  rcases step_eq_next_cases h with ⟨-, rfl⟩ | ⟨i, s', ht, hperm, rfl⟩
  · exact hs
  · have hissued (q : ReqWord) (hq : q ∈ encode i :: s'.pending) : Issued q := hs.1 q (hperm.mem_iff.2 hq)
    refine ⟨fun q hq => hissued q (List.mem_cons_of_mem _ hq), fun a ha => ?_⟩
    rw [State.answer_answered, takeRequest_answered ht, List.mem_append, List.mem_singleton] at ha
    rcases ha with ha | rfl
    · exact hs.2 a ha
    · exact ⟨eval_encode i, hissued _ List.mem_cons_self⟩

theorem PortsSound.collect {s t : State} {n : Nat} {a : Answer} (hs : PortsSound Issued s)
    (h : s.collect n = some (a, t)) : PortsSound Issued t ∧ AnswerSound Issued a := by
  obtain ⟨ha, rfl⟩ := collect_eq_some h
  exact ⟨⟨hs.1, fun b hb => hs.2 b (List.mem_of_mem_eraseIdx hb)⟩, hs.2 a (List.mem_of_getElem? ha)⟩

/-- Every event keeps the ports sound, and what hosts receive by it is sound, if what it issues is one of `Issued`. -/
theorem PortsSound.effect {s t : State} {e : HostEvent} {got : List Answer} (hs : PortsSound Issued s)
    (he : ∀ q, e = .issue q → Issued q) (h : e.effect s = some (got, t)) :
    PortsSound Issued t ∧ ∀ a ∈ got, AnswerSound Issued a := by
  cases e with
  | issue q =>
    cases h
    exact ⟨hs.issue (he q rfl), by simp⟩
  | step =>
    cases hstep : Machine.step s with
    | next t' =>
      simp only [HostEvent.effect, hstep] at h
      cases h
      exact ⟨hs.step hstep, by simp⟩
    | fault _ => simp [HostEvent.effect, hstep] at h
    | refused _ => simp [HostEvent.effect, hstep] at h
  | collect n =>
    obtain ⟨⟨a, t'⟩, hcollect, hp⟩ := Option.map_eq_some_iff.1 h
    cases hp
    obtain ⟨ht, ha⟩ := hs.collect hcollect
    exact ⟨ht, by simpa using ha⟩
  | reset =>
    cases h
    exact ⟨portsSound_of_empty Issued rfl rfl, by simp⟩

/-- All that hosts receive in a history from sound ports is sound. -/
theorem PortsSound.history {es : List HostEvent} : ∀ {s t : State} {got : List Answer}, PortsSound Issued s →
    (∀ q, .issue q ∈ es → Issued q) → Machine.history es s = some (got, t) → ∀ a ∈ got, AnswerSound Issued a := by
  induction es with
  | nil =>
    intro s t got _ _ h
    cases h
    simp
  | cons e es ih =>
    intro s t got hs hissued h a ha
    obtain ⟨got₁, s₁, got₂, heffect, hrest, rfl⟩ := (history_cons_iff e es s t got).1 h
    obtain ⟨hs₁, hgot₁⟩ := hs.effect (fun q hq => hissued q (hq ▸ List.mem_cons_self)) heffect
    rcases List.mem_append.1 ha with ha | ha
    · exact hgot₁ a ha
    · exact ih hs₁ (fun q hq => hissued q (List.mem_cons_of_mem _ hq)) hrest a ha

end

/-- From empty ports, all that hosts receive in a history is `Eval` of a request issued in it. -/
theorem history_answers_issued {es : List HostEvent} {s t : State} {got : List Answer} (hp : s.pending = [])
    (ha : s.answered = []) (h : history es s = some (got, t)) :
    ∀ a ∈ got, AnswerSound (fun q => .issue q ∈ es) a :=
  (portsSound_of_empty _ hp ha).history (fun _ hq => hq) h

/-- Settles O51: the invariant from the reset state, and again from the state after a pull of the reset line. -/
theorem receivedResponsesAreEval : Obligations.ReceivedResponsesAreEval := by
  intro es got t h
  refine ⟨history_answers_issued rfl rfl h, fun es₁ es₂ hes => ?_⟩
  subst hes
  obtain ⟨got₁, s₁, got₂, h₁, h₂, rfl⟩ := history_append h
  have hafter : history es₂ s₁.applyReset = some (got₂, t) := h₂
  refine ⟨got₁, s₁, got₂, h₁, hafter, rfl, fun a ha => ?_⟩
  obtain ⟨-, hissued⟩ := history_answers_issued rfl rfl hafter a ha
  exact hissued

end Sys2Proof.Machine
end

section
/-! PROOFS. The free order of service (O49): the states that a sequence of port events passes through do not depend on the order and
the patience that explain it, so these are read off the sequence afterwards. -/

namespace Sys2Proof.Machine

/-! The states that port events pass through -/

/-- The state after an event, in whatever order of service: a request that is taken alone is no choice among several. -/
def PortEvent.after (s : State) : PortEvent → State
  | .issue q => s.issue q
  | .serve k => if 1 < s.pending.length then s.serve k else { s with pending := [] }
  | .reset => s.applyReset

/-- The event is a choice of the `k`th among several waiting requests. -/
def PortEvent.Chooses (s : State) (e : PortEvent) (k : Nat) : Prop :=
  e = .serve k ∧ 1 < s.pending.length

/-- The state after an event holds the requests that wait after it. -/
theorem pending_after {s : State} {e : PortEvent} {waiting : List ReqWord}
    (h : e.waitingAfter s.pending = some waiting) : (e.after s).pending = waiting := by
  cases e with
  | issue q => exact Option.some.inj h
  | reset => exact Option.some.inj h
  | serve k =>
    simp only [PortEvent.waitingAfter, Option.ite_none_right_eq_some, Option.some.injEq] at h
    obtain ⟨hk, rfl⟩ := h
    rw [PortEvent.after]
    split
    case isTrue => rfl
    case isFalse hfew =>
      refine (List.eq_nil_of_length_eq_zero ?_).symm
      rw [List.length_eraseIdx_of_lt hk]
      omega

/-- Only a choice among several is counted. -/
theorem draws_after_of_chooses {s : State} {e : PortEvent} {k : Nat} (h : e.Chooses s k) :
    (e.after s).draws = s.draws + 1 := by
  obtain ⟨rfl, hmany⟩ := h
  rw [PortEvent.after, if_pos hmany, State.serve_draws]

theorem draws_le_after (s : State) (e : PortEvent) : s.draws ≤ (e.after s).draws := by
  cases e with
  | issue q => exact le_rfl
  | reset => exact le_rfl
  | serve k =>
    rw [PortEvent.after]
    split
    · exact Nat.le_succ _
    · exact le_rfl

/-- The mark `o` is passed: the oldest request has a later mark, or none waits and any that comes will have one. -/
def MarkPassed (o : Nat) (s : State) : Prop :=
  o < s.draws ∧ (s.pending = [] ∨ o < s.oldestSince)

/-- A mark once passed stays passed. -/
theorem MarkPassed.after {o : Nat} {s : State} (h : MarkPassed o s) (e : PortEvent) : MarkPassed o (e.after s) := by
  obtain ⟨hdraws, hmark⟩ := h
  refine ⟨hdraws.trans_le (draws_le_after s e), ?_⟩
  cases e with
  | reset => exact .inl rfl
  | issue q =>
    right
    rw [PortEvent.after, State.issue_oldestSince]
    split
    case isTrue => exact hdraws
    case isFalse hwaits => exact hmark.resolve_left hwaits
  | serve k =>
    rw [PortEvent.after]
    split
    case isFalse => exact .inl rfl
    case isTrue hmany =>
      right
      have hwaits : s.pending ≠ [] := by
        rintro hnone
        simp [hnone] at hmany
      rw [State.serve_oldestSince]
      split
      case isTrue => omega
      case isFalse => exact hmark.resolve_left hwaits

/-- Taking or dropping the oldest request passes every mark below the count of choices. -/
theorem markPassed_after_of_oldest_gone {o : Nat} {s : State} {e : PortEvent} (ho : o < s.draws)
    (he : e = .serve 0 ∨ e = .reset) : MarkPassed o (e.after s) := by
  refine ⟨ho.trans_le (draws_le_after s e), ?_⟩
  rcases he with rfl | rfl
  · rw [PortEvent.after]
    split
    case isTrue =>
      right
      rw [State.serve_oldestSince, if_pos rfl]
      omega
    case isFalse => exact .inl rfl
  · exact .inl rfl

/-- The states that events pass through from `s`. -/
def statesOf (events : Nat → PortEvent) (s : State) : Nat → State
  | 0 => s
  | n + 1 => (events n).after (statesOf events s n)

section
variable {events : Nat → PortEvent} {s : State}

theorem draws_statesOf_mono : Monotone fun n => (statesOf events s n).draws :=
  monotone_nat_of_le_succ fun n => draws_le_after (statesOf events s n) (events n)

/-- No two choices are made at one count of them. -/
theorem choice_unique {m n j k : Nat} (hm : (events m).Chooses (statesOf events s m) j)
    (hn : (events n).Chooses (statesOf events s n) k)
    (hdraws : (statesOf events s m).draws = (statesOf events s n).draws) : j = k := by
  have hnot_lt : ∀ {m n j : Nat}, (events m).Chooses (statesOf events s m) j →
      (statesOf events s m).draws = (statesOf events s n).draws → ¬m < n := by
    intro m n j hm hdraws hlt
    have hcount : (statesOf events s (m + 1)).draws = (statesOf events s m).draws + 1 := draws_after_of_chooses hm
    have hmono : (statesOf events s (m + 1)).draws ≤ (statesOf events s n).draws := draws_statesOf_mono hlt
    omega
  obtain rfl : m = n := le_antisymm (not_lt.1 (hnot_lt hn hdraws.symm)) (not_lt.1 (hnot_lt hm hdraws))
  exact PortEvent.serve.inj (hm.1.symm.trans hn.1)

theorem markPassed_statesOf {o m : Nat} (h : MarkPassed o (statesOf events s m)) :
    ∀ n, m ≤ n → MarkPassed o (statesOf events s n) := by
  intro n hn
  induction n, hn using Nat.le_induction with
  | base => exact h
  | succ n _ ih => exact ih.after (events n)

/-! The sequence of events -/

variable {waiting : Nat → List ReqWord} (h0 : waiting 0 = s.pending)
  (hevents : ∀ n, (events n).waitingAfter (waiting n) = some (waiting (n + 1)))

include h0 hevents

theorem pending_statesOf (n : Nat) : (statesOf events s n).pending = waiting n := by
  induction n with
  | zero => exact h0.symm
  | succ n ih =>
    refine pending_after ?_
    rw [ih]
    exact hevents n

/-- After a choice that passes the oldest request over, at a count of choices no less than that request's mark, the mark is passed
from some event on: when the oldest is taken or dropped. -/
theorem exists_markPassed (hfair : ∀ n, waiting n ≠ [] → ∃ m, n ≤ m ∧ (events m = .serve 0 ∨ events m = .reset))
    {n k : Nat} (hk : k ≠ 0) (hchoice : (events n).Chooses (statesOf events s n) k)
    (hcount : (statesOf events s n).oldestSince ≤ (statesOf events s n).draws) :
    ∃ m, MarkPassed (statesOf events s n).oldestSince (statesOf events s m) := by
  obtain ⟨he, hmany⟩ := hchoice
  have hwaits : waiting n ≠ [] := by
    rw [← pending_statesOf h0 hevents n]
    rintro hnone
    simp [hnone] at hmany
  obtain ⟨m, hnm, hgone⟩ := hfair n hwaits
  have hne : n ≠ m := by
    rintro rfl
    simp [he, hk] at hgone
  have hcounted : (statesOf events s (n + 1)).draws = (statesOf events s n).draws + 1 :=
    draws_after_of_chooses ⟨he, hmany⟩
  have hmono : (statesOf events s (n + 1)).draws ≤ (statesOf events s m).draws :=
    draws_statesOf_mono (by omega)
  exact ⟨m + 1, markPassed_after_of_oldest_gone (by omega) hgone⟩

/-- The choices that pass over an oldest request of mark `o` are made at bounded counts of choices. -/
theorem exists_bound_of_mark
    (hfair : ∀ n, waiting n ≠ [] → ∃ m, n ≤ m ∧ (events m = .serve 0 ∨ events m = .reset)) (o : Nat) :
    ∃ bound, ∀ n k, k ≠ 0 → (events n).Chooses (statesOf events s n) k → (statesOf events s n).oldestSince = o →
      (statesOf events s n).draws < bound := by
  by_cases hlate : ∃ n k, k ≠ 0 ∧ (events n).Chooses (statesOf events s n) k ∧
      (statesOf events s n).oldestSince = o ∧ o ≤ (statesOf events s n).draws
  · obtain ⟨n₀, k₀, hk₀, hchoice₀, rfl, hcount₀⟩ := hlate
    obtain ⟨m, hpassed⟩ := exists_markPassed h0 hevents hfair hk₀ hchoice₀ hcount₀
    refine ⟨(statesOf events s m).draws + 1, fun n k _ hchoice ho => ?_⟩
    have hbefore : n < m := by
      by_contra hafter
      obtain ⟨-, hnone | hmark⟩ := markPassed_statesOf hpassed n (not_lt.1 hafter)
      · have hmany := hchoice.2
        simp [hnone] at hmany
      · omega
    exact Nat.lt_succ_of_le (draws_statesOf_mono hbefore.le)
  · refine ⟨o, fun n k hk hchoice ho => ?_⟩
    by_contra hcount
    exact hlate ⟨n, k, hk, hchoice, ho, not_lt.1 hcount⟩

end

/-! An order and a patience that explain the events -/

/-- An order and a patience that agree with an event, if it is a choice, make it happen. -/
theorem happens_of_agree {order patience : Nat → Nat} {s : State} {e : PortEvent} {waiting : List ReqWord}
    (hw : e.waitingAfter s.pending = some waiting) (horder : ∀ k, e.Chooses s k → order s.draws = k)
    (hpatience : ∀ k, k ≠ 0 → e.Chooses s k → s.oldestDueBy patience = false) :
    e.Happens order patience s (e.after s) := by
  cases e with
  | issue q => rfl
  | reset => rfl
  | serve k =>
    have hk : k < s.pending.length := by
      by_contra hk
      simp [PortEvent.waitingAfter, hk] at hw
    rcases takeRequestBy_cases order patience s with ⟨hnone, -⟩ | ⟨q, hone, htake⟩ | ⟨j, q, hmany, hq, hj, htake⟩
    · simp [hnone] at hk
    · obtain rfl : k = 0 := by simpa [hone] using hk
      refine ⟨q, by simp [hone], ?_⟩
      rw [htake, PortEvent.after, if_neg (by simp [hone])]
    · have hchoice : (PortEvent.serve k).Chooses s k := ⟨rfl, hmany⟩
      obtain rfl : j = k := by
        rw [hj, horder k hchoice, Nat.mod_eq_of_lt hk]
        split
        case isFalse => rfl
        case isTrue hdue =>
          by_contra hk0
          rw [hpatience k (Ne.symm hk0) hchoice] at hdue
          cases hdue
      exact ⟨q, hq, by rw [htake, PortEvent.after, if_pos hmany]⟩

/-- Settles O49: the order is read off the choices, one for each count of them, and the patience off the bounds on the choices that
pass each oldest request over. -/
theorem everyFairOrderOfServiceIsPossible : Obligations.EveryFairOrderOfServiceIsPossible := by
  refine ⟨fun _ => rfl, fun s events waiting h0 hevents hfair => ?_⟩
  have hchosen (d : Nat) : ∃ j, ∀ n k, (events n).Chooses (statesOf events s n) k →
      (statesOf events s n).draws = d → j = k := by
    by_cases hany : ∃ n k, (events n).Chooses (statesOf events s n) k ∧ (statesOf events s n).draws = d
    · obtain ⟨m, j, hm, rfl⟩ := hany
      exact ⟨j, fun n k hn hd => choice_unique hm hn hd.symm⟩
    · exact ⟨0, fun n k hn hd => absurd ⟨n, k, hn, hd⟩ hany⟩
  choose order horder using hchosen
  choose patience hpatience using exists_bound_of_mark h0 hevents hfair
  have hpending := pending_statesOf h0 hevents
  refine ⟨order, patience, statesOf events s, rfl, fun n => ⟨hpending n, ?_⟩⟩
  have hwaiting : (events n).waitingAfter (statesOf events s n).pending = some (waiting (n + 1)) := by
    rw [hpending n]
    exact hevents n
  refine happens_of_agree hwaiting (fun k hk => horder _ n k hk rfl) fun k hk0 hk => ?_
  have hbound := hpatience _ n k hk0 hk rfl
  simp only [State.oldestDueBy, decide_eq_false_iff_not]
  omega

end Sys2Proof.Machine
end

section
/-! PROOFS. The width model's arithmetic (O12, O13), and what it makes of ADD and SUB (O16, O17, O18, O20 to O24). A masked value stands
in the lower or the upper half of its range, a sum of two wraps or does not, and each flag tells which of these is the case. -/

namespace Sys2Proof.Machine

/-! Masked values by cases, with `2^b` as twice the sign bit's weight -/

theorem two_pow_bits_int (w : Width) : (2 : Int) ^ w.bits = 2 * w.signBit := by
  exact_mod_cast w.two_mul_signBit.symm

theorem signBit_int (w : Width) : (2 : Int) ^ (w.bits - 1) = w.signBit := by
  simp [Width.signBit]

theorem mod_lt_two_pow_bits (n : Nat) (w : Width) : n % 2 ^ w.bits < 2 ^ w.bits :=
  Nat.mod_lt _ (Nat.two_pow_pos _)

/-- The signed reading in the two halves of the range (R73). -/
theorem toSigned_cases (u : Nat) (w : Width) :
    (u < w.signBit ∧ toSigned u w = u) ∨ (w.signBit ≤ u ∧ toSigned u w = u - 2 * w.signBit) := by
  rcases Nat.lt_or_ge u w.signBit with hlow | hhigh
  · exact .inl ⟨hlow, toSigned_of_lt hlow⟩
  · exact .inr ⟨hhigh, two_pow_bits_int w ▸ toSigned_of_ge hhigh⟩

theorem sign_iff {v : Nat} {w : Width} (h : v < 2 ^ w.bits) : sign v w = true ↔ w.signBit ≤ v := by
  rw [sign_eq_decide v w h, decide_eq_true_eq]

/-- Two masked values have the same sign when they stand in the same half. -/
theorem sign_eq_sign_iff {x y : Nat} {w : Width} (hx : x < 2 ^ w.bits) (hy : y < 2 ^ w.bits) :
    sign x w = sign y w ↔ (w.signBit ≤ x ↔ w.signBit ≤ y) := by
  rw [Bool.eq_iff_iff, sign_iff hx, sign_iff hy]

/-- A sum of two masked values wraps once or not at all. -/
theorem add_mod_cases {l r p : Nat} (hl : l < p) (hr : r < p) :
    (l + r < p ∧ (l + r) % p = l + r) ∨ (p ≤ l + r ∧ (l + r) % p = l + r - p) := by
  rcases Nat.lt_or_ge (l + r) p with hfits | hwraps
  · exact .inl ⟨hfits, Nat.mod_eq_of_lt hfits⟩
  · exact .inr ⟨hwraps, by rw [Nat.mod_eq_sub_mod hwraps, Nat.mod_eq_of_lt (by omega)]⟩

/-- The negation of a masked value wraps at 0 alone. -/
theorem sub_mod_cases {r p : Nat} (hr : r < p) : (r = 0 ∧ (p - r) % p = 0) ∨ (0 < r ∧ (p - r) % p = p - r) := by
  rcases Nat.eq_zero_or_pos r with rfl | hpos
  · exact .inl ⟨rfl, Nat.mod_self p⟩
  · exact .inr ⟨hpos, Nat.mod_eq_of_lt (by omega)⟩

/-- Settles O12, by the halves of the range. -/
theorem signBitTellsNegative : Obligations.SignBitTellsNegative := by
  intro v w hv
  have hdouble := w.two_mul_signBit
  refine ⟨sign_iff hv, (sign_iff hv).trans ?_⟩
  rcases toSigned_cases v w with ⟨hlow, hs⟩ | ⟨hhigh, hs⟩
  · omega
  · omega

/-- Settles O13: the negation by R75, and where a value is its own complement to `2^b`. -/
theorem negationModuloWidth : Obligations.NegationModuloWidth := by
  intro x w
  refine ⟨neg_toNat x w, ?_⟩
  rw [← BitVec.toNat_inj, neg_toNat, mask_toNat]
  have hlt := mod_lt_two_pow_bits x.toNat w
  have hdouble := w.two_mul_signBit
  have hhalf : 2 ^ (w.bits - 1) = w.signBit := rfl
  rcases sub_mod_cases hlt with ⟨hzero, hneg⟩ | ⟨hpos, hneg⟩
  · omega
  · omega

/-! The overflow flags as comparisons -/

section
variable {L R u : Nat} {w : Width} (hL : L < 2 ^ w.bits) (hR : R < 2 ^ w.bits) (hu : u < 2 ^ w.bits)
include hL hR hu

/-- R93 on masked values: the operands stand in one half of the range, and the result in the other. -/
theorem addOverflow_iff :
    addOverflow L R u w = true ↔ ((w.signBit ≤ L ↔ w.signBit ≤ R) ∧ ¬(w.signBit ≤ u ↔ w.signBit ≤ L)) := by
  rw [addOverflow, Bool.and_eq_true, beq_iff_eq, bne_iff_ne, ne_eq, sign_eq_sign_iff hL hR, sign_eq_sign_iff hu hL]

/-- R114 on masked values: the operands stand in different halves, and the result not in the left operand's. -/
theorem subOverflow_iff :
    subOverflow L R u w = true ↔ (¬(w.signBit ≤ L ↔ w.signBit ≤ R) ∧ ¬(w.signBit ≤ u ↔ w.signBit ≤ L)) := by
  rw [subOverflow, Bool.and_eq_true, bne_iff_ne, ne_eq, bne_iff_ne, ne_eq, sign_eq_sign_iff hL hR,
    sign_eq_sign_iff hu hL]

end

theorem carryFlag_iff (sum : Nat) (w : Width) : carryFlag sum w = true ↔ 2 ^ w.bits ≤ sum := by
  rw [carryFlag, decide_eq_true_eq]

/-! ADD -/

/-- A legal ADD's next state, in the model's own flags. -/
theorem exec_add_eq {t : Word} {w : Width} (h : Width.ofTag t = some w) (l r : Word) (s : State) :
    let L := l.toNat % 2 ^ w.bits
    let R := r.toNat % 2 ^ w.bits
    let u := (L + R) % 2 ^ w.bits
    exec (.add l r t) s = .next { s with answered := s.answered ++ [⟨.add l r t,
      .computation (.make (zeroFlag u) (negativeFlag u w) (addOverflow L R u w) (carryFlag (L + R) w)) (numeric u w)
        (fmt (numeric u w) w)⟩] } := by
  intro L R u
  rw [exec_add_of_legal h, addResponse_eq]
  rfl

/-- Overflow of a sum of masked values is exact: the true signed sum is out of range, and so is not the signed result. -/
theorem addOverflow_exact {L R : Nat} {w : Width} (hL : L < 2 ^ w.bits) (hR : R < 2 ^ w.bits) :
    let u := (L + R) % 2 ^ w.bits
    let S := toSigned L w + toSigned R w
    (addOverflow L R u w = true ↔ S < -2 ^ (w.bits - 1) ∨ 2 ^ (w.bits - 1) - 1 < S) ∧
      (addOverflow L R u w = true ↔ toSigned u w ≠ S) := by
  intro u S
  have hu : u < 2 ^ w.bits := mod_lt_two_pow_bits _ w
  rw [addOverflow_iff hL hR hu, signBit_int]
  have hS : S = toSigned L w + toSigned R w := rfl
  have hdouble := w.two_mul_signBit
  have hsum : (L + R < 2 ^ w.bits ∧ u = L + R) ∨ (2 ^ w.bits ≤ L + R ∧ u = L + R - 2 ^ w.bits) :=
    add_mod_cases hL hR
  have hleft := toSigned_cases L w
  have hright := toSigned_cases R w
  have hresult := toSigned_cases u w
  constructor
  · omega
  · omega

/-- Settles O16, by the exactness of overflow on the masked operands. -/
theorem addOverflowIsExact : Obligations.AddOverflowIsExact := by
  intro l r t w s hw S
  have hexact := addOverflow_exact (mod_lt_two_pow_bits l.toNat w) (mod_lt_two_pow_bits r.toNat w)
  exact ⟨_, _, _, exec_add_eq hw l r s, hexact⟩

/-- A sum of masked values that reaches `2^b` is the one that its remainder is not, and it exceeds that by `2^b`. -/
theorem add_wraps_iff {L R p : Nat} (hL : L < p) (hR : R < p) :
    (p ≤ L + R ↔ (L + R) % p ≠ L + R) ∧ (p ≤ L + R → (L + R) % p + p = L + R) := by
  rcases add_mod_cases hL hR with ⟨hfits, hu⟩ | ⟨hwraps, hu⟩
  · omega
  · omega

/-- Settles O17, by whether the sum wraps. -/
theorem addCarryIsUnsignedWrap : Obligations.AddCarryIsUnsignedWrap := by
  intro l r t w s hw L R
  obtain ⟨hiff, hsum⟩ := add_wraps_iff (mod_lt_two_pow_bits l.toNat w) (mod_lt_two_pow_bits r.toNat w)
  have hcarry := carryFlag_iff (L + R) w
  exact ⟨_, _, _, exec_add_eq hw l r s, mod_lt_two_pow_bits _ w, hcarry.trans hiff, fun h => hsum (hcarry.1 h)⟩

/-- Operands for each combination of carry and overflow: the sums `0 + 0`, `maxSigned + 1`, `valueMask + 1` and
`signBit + signBit`. -/
def carryOverflowOperands (w : Width) : Bool → Bool → Word × Word
  | false, false => (0, 0)
  | false, true => (BitVec.ofNat 32 w.maxSigned, 1)
  | true, false => (BitVec.ofNat 32 w.valueMask, 1)
  | true, true => (BitVec.ofNat 32 w.signBit, BitVec.ofNat 32 w.signBit)

/-- Those operands show their combination, at each of the four widths. -/
theorem carryOverflowOperands_spec : ∀ (w : Width) (carry overflow : Bool),
    let L := (carryOverflowOperands w carry overflow).1.toNat % 2 ^ w.bits
    let R := (carryOverflowOperands w carry overflow).2.toNat % 2 ^ w.bits
    carryFlag (L + R) w = carry ∧ addOverflow L R ((L + R) % 2 ^ w.bits) w = overflow :=
  Width.forall_iff.2 (by decide)

/-- Settles O18, by operands for each combination. -/
theorem addCarryAndOverflowIndependent : Obligations.AddCarryAndOverflowIndependent := by
  intro w t s carry overflow hw
  exact ⟨_, _, _, _, _, exec_add_eq hw _ _ s, carryOverflowOperands_spec w carry overflow⟩

/-! SUB -/

/-- A legal SUB's next state, in the model's own flags. -/
theorem exec_sub_eq {t : Word} {w : Width} (h : Width.ofTag t = some w) (l r : Word) (s : State) :
    let L := l.toNat % 2 ^ w.bits
    let R := r.toNat % 2 ^ w.bits
    let N := (2 ^ w.bits - R) % 2 ^ w.bits
    let u := (L + N) % 2 ^ w.bits
    exec (.sub l r t) s = .next { s with answered := s.answered ++ [⟨.sub l r t,
      .computation (.make (zeroFlag u) (negativeFlag u w) (subOverflow L R u w) (carryFlag (L + N) w)) (numeric u w)
        (fmt (numeric u w) w)⟩] } := by
  intro L R N u
  rw [exec_sub_of_legal h, subResponse_eq]
  rfl

/-- The delegated sum of SUB in three cases: the right operand is 0 and nothing is added; or its complement is added, and the sum wraps
exactly when the left operand is no less. -/
theorem sub_sum_cases {L R p : Nat} (hL : L < p) (hR : R < p) :
    (R = 0 ∧ (p - R) % p = 0 ∧ (L + (p - R) % p) % p = L) ∨
      (0 < R ∧ (p - R) % p = p - R ∧
        ((R ≤ L ∧ (L + (p - R) % p) % p = L - R) ∨ (L < R ∧ (L + (p - R) % p) % p = L + p - R))) := by
  rcases sub_mod_cases hR with ⟨hzero, hN⟩ | ⟨hpos, hN⟩
  · exact .inl ⟨hzero, hN, by rw [hN, Nat.add_zero, Nat.mod_eq_of_lt hL]⟩
  · refine .inr ⟨hpos, hN, ?_⟩
    rw [hN]
    have hlt : p - R < p := by omega
    rcases add_mod_cases hL hlt with ⟨hfits, hu⟩ | ⟨hwraps, hu⟩
    · exact .inr (by omega)
    · exact .inl (by omega)

/-- Settles O20, by the three cases of the delegated sum. -/
theorem subBorrowMeaning : Obligations.SubBorrowMeaning := by
  intro l r t w s hw L R
  have hL : L < 2 ^ w.bits := mod_lt_two_pow_bits l.toNat w
  have hR : R < 2 ^ w.bits := mod_lt_two_pow_bits r.toNat w
  have hcases := sub_sum_cases hL hR
  refine ⟨_, _, _, exec_sub_eq hw l r s, fun hne => ?_, fun hzero => ?_⟩
  · have hcarry : carryFlag (L + (2 ^ w.bits - R) % 2 ^ w.bits) w = decide (R ≤ L) := by
      rw [carryFlag, decide_eq_decide]
      omega
    refine ⟨hcarry, (congrArg not hcarry).trans ?_⟩
    rw [← decide_not, decide_eq_decide]
    omega
  · obtain ⟨-, hN, hu⟩ := hcases.resolve_right (by omega)
    have hcarry : carryFlag (L + (2 ^ w.bits - R) % 2 ^ w.bits) w = false := by
      rw [carryFlag, decide_eq_false_iff_not]
      omega
    refine ⟨hcarry, congrArg not hcarry, ?_, hu⟩
    exact (congrArg (subOverflow L R · w) hu).trans (by rw [subOverflow, bne_self_eq_false, Bool.and_false])

/-- The delegated add has the subtraction's operands but for the right one's negation, and its own overflow. -/
theorem addCore_neg_overflow (l r : Word) (w : Width) :
    let L := l.toNat % 2 ^ w.bits
    let N := (2 ^ w.bits - r.toNat % 2 ^ w.bits) % 2 ^ w.bits
    (addCore (mask l w) (neg r w) w).overflow = addOverflow L N ((L + N) % 2 ^ w.bits) w := by
  simp only [addCore_eq, mask_toNat, neg_toNat]

/-- Settles O21: but for 0 and the sign bit a value and its negation have opposite signs, and then the two rules agree. -/
theorem subOverflowDiffersOnlyAtSignBit : Obligations.SubOverflowDiffersOnlyAtSignBit := by
  intro l r t w s hw
  have hL := mod_lt_two_pow_bits l.toNat w
  have hR := mod_lt_two_pow_bits r.toNat w
  have hN := mod_lt_two_pow_bits (2 ^ w.bits - r.toNat % 2 ^ w.bits) w
  refine ⟨_, _, _, exec_sub_eq hw l r s, ?_⟩
  rw [addCore_neg_overflow, ne_eq, Bool.eq_iff_iff]
  have hu := mod_lt_two_pow_bits (l.toNat % 2 ^ w.bits + (2 ^ w.bits - r.toNat % 2 ^ w.bits) % 2 ^ w.bits) w
  refine Iff.trans (not_congr (iff_congr (subOverflow_iff hL hR hu) (addOverflow_iff hL hN hu))) ?_
  have hcases := sub_sum_cases hL hR
  have hdouble := w.two_mul_signBit
  have hhalf : 2 ^ (w.bits - 1) = w.signBit := rfl
  omega

/-- Overflow of a difference of masked values is exact. -/
theorem subOverflow_exact {L R : Nat} {w : Width} (hL : L < 2 ^ w.bits) (hR : R < 2 ^ w.bits) :
    let u := (L + (2 ^ w.bits - R) % 2 ^ w.bits) % 2 ^ w.bits
    let D := toSigned L w - toSigned R w
    (subOverflow L R u w = true ↔ D < -2 ^ (w.bits - 1) ∨ 2 ^ (w.bits - 1) - 1 < D) ∧
      (subOverflow L R u w = true ↔ toSigned u w ≠ D) := by
  intro u D
  have hu : u < 2 ^ w.bits := mod_lt_two_pow_bits _ w
  rw [subOverflow_iff hL hR hu, signBit_int]
  have hD : D = toSigned L w - toSigned R w := rfl
  have hdouble := w.two_mul_signBit
  have hdifference : (R ≤ L ∧ u = L - R) ∨ (L < R ∧ u = L + 2 ^ w.bits - R) := by
    rcases sub_sum_cases hL hR with ⟨hzero, -, heq⟩ | ⟨-, -, heq⟩
    · exact .inl ⟨by omega, by omega⟩
    · exact heq
  have hleft := toSigned_cases L w
  have hright := toSigned_cases R w
  have hresult := toSigned_cases u w
  constructor
  · omega
  · omega

/-- Settles O22, by the exactness of overflow on the masked operands. -/
theorem subOverflowIsExact : Obligations.SubOverflowIsExact := by
  intro l r t w s hw D
  have hexact := subOverflow_exact (mod_lt_two_pow_bits l.toNat w) (mod_lt_two_pow_bits r.toNat w)
  exact ⟨_, _, _, exec_sub_eq hw l r s, hexact⟩

/-- The delegated sum is the difference of the masked operands modulo `2^b`. -/
theorem sub_sum_eq_emod {L R p : Nat} (hL : L < p) (hR : R < p) :
    (((L + (p - R) % p) % p : Nat) : Int) = ((L : Int) - R) % p := by
  rcases sub_sum_cases hL hR with ⟨rfl, -, hu⟩ | ⟨-, -, ⟨hle, hu⟩ | ⟨hlt, hu⟩⟩
  · rw [hu, Nat.cast_zero, sub_zero, Int.emod_eq_of_lt (by omega) (by omega)]
  · rw [hu, Int.emod_eq_of_lt (by omega) (by omega)]
    omega
  · rw [hu, ← Int.add_emod_right, Int.emod_eq_of_lt (by omega) (by omega)]
    omega

/-- Settles O23: masking both operands does not change their difference modulo `2^b`. -/
theorem subIsDifferenceModuloWidth : Obligations.SubIsDifferenceModuloWidth := by
  intro l r t w s hw
  refine ⟨_, _, _, exec_sub_eq hw l r s, ?_⟩
  rw [numeric_u, sub_sum_eq_emod (mod_lt_two_pow_bits l.toNat w) (mod_lt_two_pow_bits r.toNat w)]
  push_cast
  exact (Int.sub_emod _ _ _).symm

/-- Adding and then subtracting a masked value gives the other back. -/
theorem sub_sum_of_add {L R p : Nat} (hL : L < p) (hR : R < p) :
    ((L + R) % p % p + (p - R) % p) % p = L := by
  have hsum : (L + R) % p < p := Nat.mod_lt _ (by omega)
  rw [Nat.mod_eq_of_lt hsum]
  have hadd := add_mod_cases hL hR
  rcases sub_sum_cases hsum hR with ⟨hzero, -, hu⟩ | ⟨-, -, ⟨hle, hu⟩ | ⟨hlt, hu⟩⟩
  · omega
  · omega
  · omega

/-- A value of a legal width is its own pattern. -/
theorem bits32_toNat_of_lt {u : Nat} {w : Width} (h : u < 2 ^ w.bits) : (bits32 u).toNat = u := by
  have hwidth : 2 ^ w.bits ≤ 2 ^ 32 := Nat.pow_le_pow_right (by decide) w.bits_le
  rw [bits32_toNat]
  omega

/-- Settles O24, by adding and subtracting on the masked operands. -/
theorem subInvertsAdd : Obligations.SubInvertsAdd := by
  intro x y t w s hw
  refine ⟨_, _, _, _, _, _, _, exec_add_eq hw x y s, rfl, exec_sub_eq hw _ y _, ?_⟩
  rw [numeric_u, numeric_u, bits32_toNat_of_lt (mod_lt_two_pow_bits _ w)]
  exact sub_sum_of_add (mod_lt_two_pow_bits x.toNat w) (mod_lt_two_pow_bits y.toNat w)

end Sys2Proof.Machine
end

section
/-! PROOFS. Chains of requests (O26, O29, O53): the value of one response passed on as an operand, or compared with another's. -/

namespace Sys2Proof.Machine

/-! NAND as XOR of AND -/

/-- XOR with `valueMask` complements a masked value within `b` bits. -/
theorem xor_valueMask {u b : Nat} (h : u < 2 ^ b) : u ^^^ (2 ^ b - 1) = 2 ^ b - 1 - u := by
  refine Nat.eq_of_testBit_eq fun j => ?_
  rw [show 2 ^ b - 1 - u = 2 ^ b - (u + 1) by omega, Nat.testBit_two_pow_sub_succ h, Nat.testBit_xor,
    Nat.testBit_two_pow_sub_one]
  by_cases hj : j < b
  · simp [hj]
  · have hbit : u.testBit j = false :=
      Nat.testBit_lt_two_pow (h.trans_le (Nat.pow_le_pow_right (by decide) (not_lt.1 hj)))
    simp [hj, hbit]

/-- XOR of AND's result with `valueMask` has the logical core's result of NAND. -/
theorem logicCore_xor_and (x y : Word) (w : Width) :
    logicCore (fun l r => l ^^^ r) (bits32 (logicCore (fun l r => l &&& r) x y w : Nat)) (BitVec.ofNat 32 w.valueMask) w =
      logicCore (fun l r => ~~~(l &&& r)) x y w := by
  have hand : logicCore (fun l r => l &&& r) x y w < 2 ^ w.bits := mask_toNat_lt _ w
  have hvalue : w.valueMask < 2 ^ w.bits := Nat.sub_lt (Nat.two_pow_pos _) Nat.one_pos
  rw [logicCore_xor, logicCore_nand, bits32_toNat_of_lt hand, BitVec.toNat_ofNat, Nat.mod_eq_of_lt w.valueMask_lt,
    Nat.mod_eq_of_lt hand, Nat.mod_eq_of_lt hvalue, Width.valueMask, xor_valueMask hand, logicCore_and]

/-- Settles O26: XOR and NAND answer in one way, and here with the same result of the core. -/
theorem nandIsXorOfAnd : Obligations.NandIsXorOfAnd := by
  intro x y t w s hw
  have hresponse := logicResponse_of_logicCore_eq (logicCore_xor_and x y w)
  refine ⟨_, _, _, _, _, _, _, exec_instr_of_legal hw .and x y s, rfl, rfl, exec_instr_of_legal hw .xor _ _ _, rfl, ?_⟩
  exact (exec_instr_of_legal hw .nand x y _).trans (congrArg (fun r => Host.Outcome.next (State.answer _ _ r)) hresponse.symm)

/-! FORMAT's complement as SUB from zero -/

/-- Settles O29: subtracting from 0 delegates the negation alone. -/
theorem comIsBinOfZeroMinusValue : Obligations.ComIsBinOfZeroMinusValue := by
  intro x g t w s hw
  refine ⟨_, _, _, _, _, _, exec_format_of_legal hw x g s, exec_sub_eq hw 0 x s, ?_⟩
  have hzero : (0 : Word).toNat = 0 := rfl
  rw [fmt_bin, numeric_u, complementText, neg_toNat, hzero, Nat.zero_mod, Nat.zero_add, Nat.mod_mod]

/-! A result passed on in either reading -/

/-- The pattern of an integer has that integer's remainder modulo `2^b`. -/
theorem bits32_emod (n : Int) (w : Width) : (((bits32 n).toNat % 2 ^ w.bits : Nat) : Int) = n % 2 ^ w.bits := by
  have hnonneg : 0 ≤ n % 2 ^ 32 := Int.emod_nonneg n (by decide)
  rw [bits32_toNat, Int.natCast_emod, Int.toNat_of_nonneg hnonneg, Nat.cast_pow, Nat.cast_ofNat]
  exact Int.emod_emod_of_dvd n (pow_dvd_pow 2 w.bits_le)

/-- Both readings of a masked value have the same low `b` bits: they differ by `2^b` or not at all. -/
theorem bits32_toSigned_mod (u : Nat) (w : Width) :
    (bits32 (toSigned u w)).toNat % 2 ^ w.bits = (bits32 u).toNat % 2 ^ w.bits := by
  rw [← Int.natCast_inj, bits32_emod, bits32_emod]
  rcases toSigned_cases u w with ⟨-, hs⟩ | ⟨-, hs⟩
  · rw [hs]
  · rw [hs, ← two_pow_bits_int, Int.sub_emod_right]

/-- Settles O53: every operation's result depends on the low `b` bits of its operands alone. -/
theorem chainingThroughUnsignedOrSigned : Obligations.ChainingThroughUnsignedOrSigned := by
  intro op u y t w s hw _
  have hsame := bits32_toSigned_mod u w
  refine ⟨⟨_, exec_instr_of_legal hw op _ y s, ?_⟩, ⟨_, exec_instr_of_legal hw op y _ s, ?_⟩⟩
  · rw [← instrResult_congr op t hsame rfl]
    exact exec_instr_of_legal hw op _ y s
  · rw [← instrResult_congr op t rfl hsame]
    exact exec_instr_of_legal hw op y _ s

end Sys2Proof.Machine
end

section
/-! PROOFS. The bytes of a request word on a bus (O8): every host's order only permutes them. -/

namespace Sys2Proof

/-- Byte `j` of a request word as a number. -/
theorem ReqWord.byte_toNat (q : ReqWord) (j : Fin 16) : (ReqWord.byte q j).toNat = q.toNat / 256 ^ j.val % 256 := by
  rw [ReqWord.byte, BitVec.extractLsb'_toNat, Nat.shiftRight_eq_div_pow, pow_mul]
  norm_num

theorem bytesValue_append_singleton (bs : List Byte) (b : Byte) :
    bytesValue (bs ++ [b]) = bytesValue bs + 256 ^ bs.length * b.toNat := by
  induction bs with
  | nil => simp [bytesValue]
  | cons c cs ih =>
    rw [List.cons_append, bytesValue, ih, bytesValue, List.length_cons, pow_succ]
    ring

/-- The low bytes of a number, least significant first, write it modulo their range. -/
theorem bytesValue_low_bytes (n k : Nat) :
    bytesValue ((List.range k).map fun j => BitVec.ofNat 8 (n / 256 ^ j)) = n % 256 ^ k := by
  induction k with
  | zero => simp [bytesValue, Nat.mod_one]
  | succ k ih =>
    rw [List.range_succ, List.map_append, List.map_singleton, bytesValue_append_singleton, ih, List.length_map,
      List.length_range, BitVec.toNat_ofNat]
    exact Nat.mod_pow_succ.symm

/-- A request word's 16 bytes write it. -/
theorem bytesValue_bytes (q : ReqWord) : bytesValue ((List.finRange 16).map (ReqWord.byte q)) = q.toNat := by
  have hbytes : (List.finRange 16).map (ReqWord.byte q) = (List.range 16).map fun j => BitVec.ofNat 8 (q.toNat / 256 ^ j) := by
    rw [← List.map_coe_finRange_eq_range, List.map_map]
    refine List.map_congr_left fun j _ => BitVec.eq_of_toNat_eq ?_
    rw [ReqWord.byte_toNat, Function.comp_apply, BitVec.toNat_ofNat]
  rw [hbytes, bytesValue_low_bytes]
  exact Nat.mod_eq_of_lt q.isLt

theorem serialise_length (o : HostByteOrder) (q : ReqWord) : (serialise o q).length = 16 := by
  rw [serialise, List.length_map, List.length_finRange]

/-- The lane that carries byte `j` is the one that the host's order sends there. -/
theorem serialise_getD_symm (o : HostByteOrder) (q : ReqWord) (j : Fin 16) :
    (serialise o q).getD (o.symm j).val 0 = ReqWord.byte q j := by
  simp [serialise, List.getD_eq_getElem?_getD]

theorem deserialise_serialise (o : HostByteOrder) (q : ReqWord) : deserialise o (serialise o q) = some q := by
  have hlanes : ((List.finRange 16).map fun j => (serialise o q).getD (o.symm j).val 0) =
      (List.finRange 16).map (ReqWord.byte q) :=
    List.map_congr_left fun j _ => serialise_getD_symm o q j
  rw [deserialise, if_pos (serialise_length o q), hlanes, bytesValue_bytes, BitVec.ofNat_toNat, BitVec.setWidth_eq]

namespace Machine

/-- Settles O8, by the byte that each lane carries. -/
theorem busBytesCarryTheRequest : Obligations.BusBytesCarryTheRequest := by
  intro o q
  refine ⟨serialise_length o q, deserialise_serialise o q, ?_⟩
  simp only [decodeBytes, deserialise_serialise]

end Machine

end Sys2Proof
end

section
/-! PROOFS. The formatter's strings (O30, O32 to O35): the decimal numerals by their recursion, and the binary and hexadecimal strings as
one positional numeral in two bases. -/

namespace Sys2Proof.Machine

/-! Digits -/

theorem digitValue_digitChar : ∀ d < 16, digitValue (digitChar d) = some d := by decide

theorem digitChar_of_lt_ten : ∀ d < 10, digitChar d = Char.ofNat (48 + d) := by decide

theorem digitChar_eq_ite : ∀ d < 16, digitChar d = if d < 10 then Char.ofNat (48 + d) else Char.ofNat (55 + d) := by
  decide

theorem digitChar_ne_zero : ∀ d < 10, d ≠ 0 → digitChar d ≠ '0' := by decide

/-! The decimal numeral -/

theorem dec_of_lt {n : Nat} (h : n < 10) : dec n = [digitChar n] := by
  rw [dec_eq, if_pos h]

theorem dec_of_ge {n : Nat} (h : 10 ≤ n) : dec n = dec (n / 10) ++ [digitChar (n % 10)] := by
  rw [dec_eq, if_neg (by omega)]

/-- Induction along the recursion of the decimal numeral: one digit, or one digit more. -/
theorem decimal_induction {P : Nat → Prop} (digit : ∀ n < 10, P n) (more : ∀ n, 10 ≤ n → P (n / 10) → P n) (n : Nat) :
    P n := by
  induction n using Nat.strong_induction_on with
  | h n ih =>
    rcases Nat.lt_or_ge n 10 with hsmall | hlarge
    · exact digit n hsmall
    · exact more n hlarge (ih (n / 10) (by omega))

theorem dec_ne_nil (n : Nat) : dec n ≠ [] := by
  rw [dec_eq]
  split
  · simp
  · simp

/-- Every character of a decimal numeral is a decimal digit. -/
theorem exists_digit_of_mem_dec {c : Char} (n : Nat) : c ∈ dec n → ∃ d < 10, c = digitChar d := by
  induction n using decimal_induction with
  | digit n hn =>
    rw [dec_of_lt hn, List.mem_singleton]
    exact fun hc => ⟨n, hn, hc⟩
  | more n hn ih =>
    rw [dec_of_ge hn, List.mem_append, List.mem_singleton]
    rintro (hc | hc)
    · exact ih hc
    · exact ⟨n % 10, Nat.mod_lt _ (by decide), hc⟩

/-- The numeral of a number that is not 0 is its base-10 digits, most significant first (R151). -/
theorem dec_eq_digits (n : Nat) :
    n ≠ 0 → dec n = ((Nat.digits 10 n).map fun d => Char.ofNat (48 + d)).reverse := by
  induction n using decimal_induction with
  | digit n hn =>
    intro h0
    rw [dec_of_lt hn, Nat.digits_of_lt 10 n h0 hn, digitChar_of_lt_ten n hn]
    rfl
  | more n hn ih =>
    intro h0
    rw [dec_of_ge hn, ih (by omega), Nat.digits_def' (by decide) (Nat.pos_of_ne_zero h0), List.map_cons, List.reverse_cons,
      digitChar_of_lt_ten _ (Nat.mod_lt n (by decide))]

/-- No numeral but that of 0 begins with the digit 0. -/
theorem dec_head?_ne_zero (n : Nat) : n ≠ 0 → (dec n).head? ≠ some '0' := by
  induction n using decimal_induction with
  | digit n hn =>
    intro h0
    rw [dec_of_lt hn, List.head?_cons]
    exact fun hhead => digitChar_ne_zero n hn h0 (Option.some.inj hhead)
  | more n hn ih =>
    intro _
    rw [dec_of_ge hn, List.head?_append_of_ne_nil _ (dec_ne_nil _)]
    exact ih (by omega)

/-- The signed numeral is that of the magnitude, after a minus sign if the number is negative (R152). -/
theorem sdec_eq (s : Int) : sdec s = if s < 0 then '-' :: dec s.natAbs else dec s.natAbs := by
  rw [sdec]
  split
  · rw [show (-s).toNat = s.natAbs by omega]
  · rw [show s.toNat = s.natAbs by omega]

/-- Settles O30, by induction along the numeral's recursion. -/
theorem decimalNumerals : Obligations.DecimalNumerals :=
  ⟨fun n h0 => ⟨dec_eq_digits n h0, dec_head?_ne_zero n h0⟩, dec_of_lt (by decide), sdec_eq⟩

/-! Numerals of a fixed number of digits -/

/-- The numeral of `v` with `k` digits in a base, most significant first. -/
def digitText (base k v : Nat) : Text :=
  (List.range k).map fun j => digitChar (v / base ^ (k - 1 - j) % base)

/-- One digit more is the lowest one, after the numeral of the rest. -/
theorem digitText_succ (base k v : Nat) :
    digitText base (k + 1) v = digitText base k (v / base) ++ [digitChar (v % base)] := by
  rw [digitText, digitText, List.range_succ, List.map_append, List.map_singleton]
  congr 1
  · refine List.map_congr_left fun j hj => ?_
    have hjk : j < k := List.mem_range.1 hj
    rw [Nat.div_div_eq_div_mul, ← pow_succ', show k + 1 - 1 - j = k - 1 - j + 1 by omega]
  · simp

/-- The binary string is the numeral in base 2 (R153). -/
theorem binText_eq_digitText (v b : Nat) : binText v b = digitText 2 b v := by
  refine List.map_congr_left fun j _ => ?_
  rw [Nat.testBit_eq_decide_div_mod_eq]
  rcases Nat.mod_two_eq_zero_or_one (v / 2 ^ (b - 1 - j)) with hbit | hbit
  · rw [hbit]
    rfl
  · rw [hbit]
    rfl

/-- The hexadecimal string is the numeral in base 16 (R154). -/
theorem hexText_eq_digitText (v b : Nat) : hexText v b = digitText 16 (hexDigits b) v := by
  refine List.map_congr_left fun j _ => ?_
  rw [pow_mul]
  norm_num

theorem exists_digit_of_mem_digitText {base k v : Nat} {c : Char} (hbase : 0 < base) (h : c ∈ digitText base k v) :
    ∃ d < base, c = digitChar d := by
  obtain ⟨j, -, rfl⟩ := List.mem_map.1 h
  exact ⟨_, Nat.mod_lt _ hbase, rfl⟩

/-- Character `j` of the hexadecimal string shows nibble `k-1-j` (R154). -/
theorem hexText_getElem? {v b j : Nat} (h : j < hexDigits b) :
    (hexText v b)[j]? = some (digitChar (v / 2 ^ (4 * (hexDigits b - 1 - j)) % 16)) := by
  rw [hexText, List.getElem?_map, List.getElem?_range h, Option.map_some]

/-- Settles O32, by the character at each index. -/
theorem hexCharacters : Obligations.HexCharacters := by
  refine ⟨fun v b => ⟨hexText_length v b, ?_⟩, Width.forall_iff.2 (by decide), by decide, by decide⟩
  intro j hj d
  have hd : d < 16 := Nat.mod_lt _ (by decide)
  rw [hexText_getElem? hj, ← digitChar_eq_ite d hd]
  rfl

/-! Reading a numeral back -/

theorem readDigits_append (base : Nat) (t t' : Text) : ∀ acc,
    readDigits base acc (t ++ t') = (readDigits base acc t).bind fun n => readDigits base n t' := by
  induction t with
  | nil => exact fun _ => rfl
  | cons c t ih =>
    intro acc
    rw [List.cons_append, readDigits, readDigits]
    cases digitValue c with
    | none => rfl
    | some d =>
      simp only
      split
      · exact ih _
      · rfl

/-- One digit of the base. -/
theorem readDigits_digitChar {base d : Nat} (acc : Nat) (hbase : base ≤ 16) (hd : d < base) :
    readDigits base acc [digitChar d] = some (base * acc + d) := by
  simp only [readDigits, digitValue_digitChar d (hd.trans_le hbase), if_pos hd]

theorem readNat_of_ne_nil {base : Nat} {t : Text} (h : t ≠ []) : readNat base t = readDigits base 0 t :=
  if_neg h

theorem readDigits_dec (n : Nat) : readDigits 10 0 (dec n) = some n := by
  induction n using decimal_induction with
  | digit n hn => rw [dec_of_lt hn, readDigits_digitChar 0 (by decide) hn, Nat.mul_zero, Nat.zero_add]
  | more n hn ih =>
    rw [dec_of_ge hn, readDigits_append, ih, Option.bind_some,
      readDigits_digitChar _ (by decide) (Nat.mod_lt n (by decide)), Nat.div_add_mod]

theorem readNat_dec (n : Nat) : readNat 10 (dec n) = some n :=
  (readNat_of_ne_nil (dec_ne_nil n)).trans (readDigits_dec n)

/-- A numeral of `k` digits reads back as its number modulo their range. -/
theorem readDigits_digitText {base : Nat} (hpos : 0 < base) (hbase : base ≤ 16) (k : Nat) : ∀ v,
    readDigits base 0 (digitText base k v) = some (v % base ^ k) := by
  induction k with
  | zero => exact fun v => by rw [pow_zero, Nat.mod_one]; rfl
  | succ k ih =>
    intro v
    rw [digitText_succ, readDigits_append, ih, Option.bind_some,
      readDigits_digitChar _ hbase (Nat.mod_lt v hpos), pow_succ', Nat.mod_mul, Nat.add_comm]

theorem readNat_digitText {base k v : Nat} (hpos : 0 < base) (hbase : base ≤ 16) (hk : 0 < k) (hv : v < base ^ k) :
    readNat base (digitText base k v) = some v := by
  have hne : digitText base k v ≠ [] := by
    rw [← List.length_pos_iff, digitText, List.length_map, List.length_range]
    exact hk
  rw [readNat_of_ne_nil hne, readDigits_digitText hpos hbase, Nat.mod_eq_of_lt hv]

theorem readNat_binText {v b : Nat} (hb : 0 < b) (hv : v < 2 ^ b) : readNat 2 (binText v b) = some v := by
  rw [binText_eq_digitText]
  exact readNat_digitText (by decide) (by decide) hb hv

theorem readNat_hexText {v b : Nat} (hb : 0 < b) (hv : v < 2 ^ b) : readNat 16 (hexText v b) = some v := by
  rw [hexText_eq_digitText]
  refine readNat_digitText (by decide) (by decide) (by unfold hexDigits; omega) (hv.trans_le ?_)
  rw [show 16 = 2 ^ 4 by rfl, ← pow_mul]
  exact Nat.pow_le_pow_right (by decide) (by unfold hexDigits; omega)

/-- A text without the letters `x` and `b` and without a minus sign is read as a decimal literal (R62). -/
theorem parseLiteral_of_unmarked {t : Text} (hx : 'x' ∉ t) (hb : 'b' ∉ t) (hminus : '-' ∉ t) :
    parseLiteral t = (readNat 10 t).map Int.ofNat := by
  have htake {n : Nat} {c : Char} (hc : c ∉ t) (pre : Text) : t.take n ≠ pre ++ [c] := by
    intro heq
    exact hc (List.mem_of_mem_take (heq ▸ List.mem_append_right pre List.mem_cons_self))
  have h0x : t.take 2 ≠ ['0', 'x'] := htake hx ['0']
  have h0b : t.take 2 ≠ ['0', 'b'] := htake hb ['0']
  have hsign : t.take 1 ≠ ['-'] := htake hminus []
  rw [parseLiteral, if_neg h0x, if_neg h0b, if_neg hsign]

/-- The decimal digits are neither letters nor a minus sign. -/
theorem notMem_dec_of_not_digit {c : Char} (h : ∀ d < 10, c ≠ digitChar d) (n : Nat) : c ∉ dec n := by
  intro hc
  obtain ⟨d, hd, heq⟩ := exists_digit_of_mem_dec n hc
  exact h d hd heq

theorem parseLiteral_dec (n : Nat) : parseLiteral (dec n) = some (n : Int) := by
  rw [parseLiteral_of_unmarked (notMem_dec_of_not_digit (by decide) n) (notMem_dec_of_not_digit (by decide) n)
    (notMem_dec_of_not_digit (by decide) n), readNat_dec]
  rfl

/-- A minus sign before a decimal literal negates it (R62). -/
theorem parseLiteral_minus (t : Text) : parseLiteral ('-' :: t) = (readNat 10 t).map fun n : Nat => -(n : Int) := by
  cases h : readNat 10 t <;> simp [parseLiteral, h]

theorem parseLiteral_sdec (s : Int) : parseLiteral (sdec s) = some s := by
  rw [sdec_eq]
  split
  · rw [parseLiteral_minus, readNat_dec, Option.map_some, show -(s.natAbs : Int) = s by omega]
  · rw [parseLiteral_dec, show (s.natAbs : Int) = s by omega]

theorem parseLiteral_binary (t : Text) : parseLiteral ('0' :: 'b' :: t) = (readNat 2 t).map Int.ofNat := by
  simp [parseLiteral]

theorem parseLiteral_hexadecimal (t : Text) : parseLiteral ('0' :: 'x' :: t) = (readNat 16 t).map Int.ofNat := by
  simp [parseLiteral]

/-- The four strings of a masked value read back as the value (R150). -/
theorem fmt_reads_back {v : NumericResult} {w : Width} (h : v.u < 2 ^ w.bits) :
    readNat 10 (fmt v w).unsigned = some v.u ∧ parseLiteral (fmt v w).signed = some v.s ∧
      readNat 2 (fmt v w).bin = some v.u ∧ readNat 16 (fmt v w).hex = some v.u :=
  ⟨readNat_dec v.u, parseLiteral_sdec v.s, readNat_binText w.bits_pos h, readNat_hexText w.bits_pos h⟩

theorem ValueLawful.u_lt {v : NumericResult} {w : Width} (h : ValueLawful v w) : v.u < 2 ^ w.bits := by
  obtain ⟨hle, -⟩ := h
  exact Nat.lt_of_le_pred (Nat.two_pow_pos _) hle

/-- Settles O33, for an instruction's response by its being lawful: its text is the text of its own masked value. -/
theorem stringsReadBackAsNumbers : Obligations.StringsReadBackAsNumbers := by
  refine ⟨readNat_dec, parseLiteral_sdec, fun v b hb hv => ?_, fun _ _ => rfl, ?_, ?responses⟩
  · have hbin := readNat_binText hb hv
    have hhex := readNat_hexText hb hv
    refine ⟨hbin, hhex, ?_, ?_⟩
    · rw [parseLiteral_binary, hbin]
      rfl
    · rw [parseLiteral_hexadecimal, hhex]
      rfl
  · intro u w hu x
    rw [← toSigned_eq_ite]
    exact fmt_reads_back (v := numeric u w) (Nat.lt_of_le_pred (Nat.two_pow_pos _) hu)
  case responses =>
    intro i s t a hexec hanswered
    obtain rfl := answer_of_exec hexec hanswered
    have hlawful := instrResponse_lawful i
    simp only
    generalize instrResponse i = r at hlawful ⊢
    cases r with
    | computation f v x =>
      obtain ⟨-, w, -, hv, -, rfl⟩ := hlawful
      exact fmt_reads_back hv.u_lt
    | formatted v x com =>
      obtain ⟨-, w, -, hv, rfl, rfl⟩ := hlawful
      obtain ⟨hdec, hsdec, hbin, hhex⟩ := fmt_reads_back hv.u_lt
      refine ⟨hdec, hsdec, hbin, hhex, ?_⟩
      rw [binText_length]
      exact readNat_binText w.bits_pos (mod_lt_two_pow_bits _ w)
    | error _ => trivial

/-! Lengths -/

theorem dec_length_pos (n : Nat) : 0 < (dec n).length :=
  List.length_pos_iff.2 (dec_ne_nil n)

/-- A number below `10^k` has at most `k` decimal digits. -/
theorem dec_length_le (n : Nat) : ∀ k, 0 < k → n < 10 ^ k → (dec n).length ≤ k := by
  induction n using decimal_induction with
  | digit n hn =>
    intro k hk _
    rw [dec_of_lt hn]
    exact hk
  | more n hn ih =>
    intro k hk hlt
    obtain ⟨k, rfl⟩ := Nat.exists_eq_add_of_lt hk
    rw [Nat.zero_add, pow_succ] at hlt
    have hk1 : k ≠ 0 := by
      rintro rfl
      omega
    have hrest := ih k (Nat.pos_of_ne_zero hk1) (Nat.div_lt_of_lt_mul (Nat.mul_comm _ 10 ▸ hlt))
    rw [dec_of_ge hn, List.length_append, List.length_singleton]
    omega

theorem sdec_length_pos (s : Int) : 0 < (sdec s).length := by
  rw [sdec_eq]
  split
  · exact Nat.succ_pos _
  · exact dec_length_pos _

/-- A minus sign is one character more. -/
theorem sdec_length_le {s : Int} {k : Nat} (hk : 0 < k) (h : s.natAbs < 10 ^ k) : (sdec s).length ≤ k + 1 := by
  have hdec := dec_length_le s.natAbs k hk h
  rw [sdec_eq]
  split
  · exact Nat.succ_le_succ hdec
  · exact Nat.le_succ_of_le hdec

/-- The magnitude of a signed reading is at most the sign bit's weight. -/
theorem toSigned_natAbs_le {u : Nat} {w : Width} (h : u < 2 ^ w.bits) : (toSigned u w).natAbs ≤ w.signBit := by
  have hdouble := w.two_mul_signBit
  rcases toSigned_cases u w with ⟨hlow, hs⟩ | ⟨hhigh, hs⟩
  · omega
  · omega

/-- How many decimal digits the values and the magnitudes of a width have at most. -/
theorem fmt_lengths_le {u k m : Nat} {w : Width} (h : u < 2 ^ w.bits) (hk : 2 ^ w.bits ≤ 10 ^ k) (hm : w.signBit < 10 ^ m)
    (hk0 : 0 < k) (hm0 : 0 < m) :
    (fmt (numeric u w) w).unsigned.length ≤ k ∧ (fmt (numeric u w) w).signed.length ≤ m + 1 :=
  ⟨dec_length_le u k hk0 (h.trans_le hk), sdec_length_le hm0 ((toSigned_natAbs_le h).trans_lt hm)⟩

/-- Settles O34, with the powers of 10 that bound each width. -/
theorem stringLengthBounds : Obligations.StringLengthBounds := by
  intro u w hu x
  have hlt : u < 2 ^ w.bits := Nat.lt_of_le_pred (Nat.two_pow_pos _) hu
  have hhex : hexDigits w.bits = w.bits / 4 := by cases w <;> rfl
  refine ⟨binText_length u w.bits, (hexText_length u w.bits).trans hhex, dec_length_pos u, sdec_length_pos _, ?_⟩
  cases w with
  | w4 => exact fmt_lengths_le (k := 2) (m := 1) hlt (by decide) (by decide) (by decide) (by decide)
  | w8 => exact fmt_lengths_le (k := 3) (m := 3) hlt (by decide) (by decide) (by decide) (by decide)
  | w16 => exact fmt_lengths_le (k := 5) (m := 5) hlt (by decide) (by decide) (by decide) (by decide)
  | w32 => exact fmt_lengths_le (k := 10) (m := 10) hlt (by decide) (by decide) (by decide) (by decide)

/-! Characters -/

/-- The characters that R155 allows in an output string. -/
def IsOutputChar (c : Char) : Prop :=
  ('0' ≤ c ∧ c ≤ '9') ∨ ('A' ≤ c ∧ c ≤ 'F') ∨ c = '-'

theorem isOutputChar_digitChar : ∀ d < 16, IsOutputChar (digitChar d) := by
  unfold IsOutputChar
  decide

theorem isOutputChar_of_mem_dec {c : Char} {n : Nat} (h : c ∈ dec n) : IsOutputChar c := by
  obtain ⟨d, hd, rfl⟩ := exists_digit_of_mem_dec n h
  exact isOutputChar_digitChar d (by omega)

theorem isOutputChar_of_mem_sdec {c : Char} {s : Int} (h : c ∈ sdec s) : IsOutputChar c := by
  rw [sdec_eq] at h
  split at h
  · rcases List.mem_cons.1 h with rfl | h
    · exact .inr (.inr rfl)
    · exact isOutputChar_of_mem_dec h
  · exact isOutputChar_of_mem_dec h

theorem isOutputChar_of_mem_binText {c : Char} {v b : Nat} (h : c ∈ binText v b) : IsOutputChar c := by
  rw [binText_eq_digitText] at h
  obtain ⟨d, hd, rfl⟩ := exists_digit_of_mem_digitText (by decide) h
  exact isOutputChar_digitChar d (by omega)

theorem isOutputChar_of_mem_hexText {c : Char} {v b : Nat} (h : c ∈ hexText v b) : IsOutputChar c := by
  rw [hexText_eq_digitText] at h
  obtain ⟨d, hd, rfl⟩ := exists_digit_of_mem_digitText (by decide) h
  exact isOutputChar_digitChar d hd

/-- Every character of the four strings of a value is one that R155 allows. -/
theorem isOutputChar_of_mem_fmt {c : Char} {v : NumericResult} {w : Width}
    (h : c ∈ (fmt v w).unsigned ++ (fmt v w).signed ++ (fmt v w).bin ++ (fmt v w).hex) : IsOutputChar c := by
  simp only [List.mem_append, fmt_unsigned, fmt_signed, fmt_bin, fmt_hex] at h
  rcases h with ((h | h) | h) | h
  · exact isOutputChar_of_mem_dec h
  · exact isOutputChar_of_mem_sdec h
  · exact isOutputChar_of_mem_binText h
  · exact isOutputChar_of_mem_hexText h

/-- Settles O35: a lawful response has no strings but those of its value and a binary one. -/
theorem outputCharactersAreAscii : Obligations.OutputCharactersAreAscii := by
  refine ⟨fun i s t a hexec hanswered => ?_, by decide, by decide, by decide⟩
  obtain rfl := answer_of_exec hexec hanswered
  have hlawful := instrResponse_lawful i
  simp only
  generalize instrResponse i = r at hlawful ⊢
  cases r with
  | computation f v x =>
    obtain ⟨-, w, -, -, -, rfl⟩ := hlawful
    exact fun c => isOutputChar_of_mem_fmt
  | formatted v x com =>
    obtain ⟨-, w, -, -, rfl, rfl⟩ := hlawful
    intro c hc
    rcases List.mem_append.1 hc with hc | hc
    · exact isOutputChar_of_mem_fmt hc
    · exact isOutputChar_of_mem_binText hc
  | error _ => trivial

end Sys2Proof.Machine
end

section
/-! PROOFS. The assembler: which lines it takes (O6), and how it reads a call written with decimal literals (O7). -/

namespace Sys2Proof.Machine

/-! Ranges and counts -/

theorem operandLiteralOk_iff (n : Int) : operandLiteralOk n = true ↔ -2 ^ 31 ≤ n ∧ n ≤ 2 ^ 32 - 1 := by
  rw [operandLiteralOk, Bool.and_eq_true, decide_eq_true_eq, decide_eq_true_eq]

theorem widthLiteralOk_iff (n : Int) : widthLiteralOk n = true ↔ 0 ≤ n ∧ n ≤ 2 ^ 32 - 1 := by
  rw [widthLiteralOk, Bool.and_eq_true, decide_eq_true_eq, decide_eq_true_eq]

/-- A line of three literals assembles exactly when it is well-formed (R62). -/
theorem exists_assemble_iff_of_ne_format {op : Operation} (hop : op ≠ .format) (l r w : Int) :
    (∃ q, assemble ⟨op, [l, r, w]⟩ = .ok q) ↔ (AsmLine.mk op [l, r, w]).wellFormed = true := by
  rw [assemble_of_ne_format hop]
  split
  case isTrue hwf => exact iff_of_true ⟨_, rfl⟩ hwf
  case isFalse hwf => exact iff_of_false nofun hwf

/-- FORMAT's line assembles exactly when it is well-formed (R62). -/
theorem exists_assemble_format_iff (v w : Int) :
    (∃ q, assemble ⟨.format, [v, w]⟩ = .ok q) ↔ (AsmLine.mk .format [v, w]).wellFormed = true := by
  rw [assemble_format]
  split
  case isTrue hwf => exact iff_of_true ⟨_, rfl⟩ hwf
  case isFalse hwf => exact iff_of_false nofun hwf

/-- A negative literal has the pattern of the one that is `2^32` greater (R62). -/
theorem bits32_add_two_pow (n : Int) : bits32 (n + 2 ^ 32) = bits32 n := by
  apply BitVec.eq_of_toNat_eq
  rw [bits32_toNat, bits32_toNat, Int.add_emod_right]

/-- A negative left literal in range assembles as the one that is `2^32` greater, whatever the other literals. -/
theorem assemble_of_negative_left {op : Operation} (hop : op ≠ .format) {l : Int} (r w : Int) (hlow : -2 ^ 31 ≤ l)
    (hneg : l < 0) : assemble ⟨op, [l, r, w]⟩ = assemble ⟨op, [l + 2 ^ 32, r, w]⟩ := by
  have hok : operandLiteralOk l = true := (operandLiteralOk_iff l).2 (by omega)
  have hok' : operandLiteralOk (l + 2 ^ 32) = true := (operandLiteralOk_iff _).2 (by omega)
  rw [assemble_of_ne_format hop, assemble_of_ne_format hop, wellFormed_of_ne_format hop, wellFormed_of_ne_format hop,
    hok, hok', bits32_add_two_pow]

theorem Operation.argCount_eq (op : Operation) : op.argCount = if op = .format then 2 else 3 := by
  cases op <;> rfl

/-- Any other number of literals is refused (R61). -/
theorem assemble_of_wrong_count {op : Operation} {args : List Int} (h : args.length ≠ if op = .format then 2 else 3) :
    assemble ⟨op, args⟩ = .error .wrongCount :=
  if_pos (Operation.argCount_eq op ▸ h)

theorem assembleText_of_parseLine {line : Text} {a : AsmLine} (h : parseLine line = .ok a) :
    assembleText line = assemble a := by
  simp only [assembleText, h]

theorem assembleText_of_parseLine_error {line : Text} {e : AsmError} (h : parseLine line = .error e) :
    assembleText line = .error e := by
  simp only [assembleText, h]

/-! The parts of a text -/

/-- What is dropped ends before the first character that is kept. -/
theorem dropWhile_pad {p : Char → Bool} {pre t : Text} (hpre : ∀ c ∈ pre, p c = true)
    (ht : ∀ c ∈ t.head?, p c = false) : (pre ++ t).dropWhile p = t := by
  rw [List.dropWhile_append_of_pos hpre]
  cases t with
  | nil => rfl
  | cons c t => rw [List.dropWhile_cons_of_neg (by simp [ht c rfl])]

/-- A text that begins and ends with no blank is what is left of it between blanks. -/
theorem trimBlanks_pad {pre t post : Text} (hpre : ∀ c ∈ pre, isBlank c = true) (hpost : ∀ c ∈ post, isBlank c = true)
    (hne : t ≠ []) (hfirst : ∀ c ∈ t.head?, isBlank c = false) (hlast : ∀ c ∈ t.getLast?, isBlank c = false) :
    trimBlanks (pre ++ t ++ post) = t := by
  have hfront : (pre ++ (t ++ post)).dropWhile isBlank = t ++ post :=
    dropWhile_pad hpre (by rwa [List.head?_append_of_ne_nil _ hne])
  have hback : (post.reverse ++ t.reverse).dropWhile isBlank = t.reverse :=
    dropWhile_pad (fun c hc => hpost c (List.mem_reverse.1 hc)) (by rwa [List.head?_reverse])
  rw [trimBlanks, List.append_assoc, hfront, List.reverse_append, hback, List.reverse_reverse]

/-- A text without commas is added to the first of the parts that follow it. -/
theorem splitCommas_append {a t part : Text} {parts : List Text} (ha : ',' ∉ a) (ht : splitCommas t = part :: parts) :
    splitCommas (a ++ t) = (a ++ part) :: parts := by
  induction a with
  | nil => exact ht
  | cons c a ih =>
    obtain ⟨hc, ha'⟩ := not_or.1 (fun h => ha (List.mem_cons.2 h))
    have hne : (c == ',') = false := beq_eq_false_iff_ne.2 (Ne.symm hc)
    rw [List.cons_append, splitCommas, hne, ih ha']
    rfl

/-- Parts without commas, written with a comma and a space between them, are split again; each but the first has its space. -/
theorem splitCommas_intercalate (part : Text) (parts : List Text) : (∀ p ∈ part :: parts, ',' ∉ p) →
    splitCommas ([',', ' '].intercalate (part :: parts)) = part :: parts.map (' ' :: ·) := by
  induction parts generalizing part with
  | nil =>
    intro h
    have hsplit := splitCommas_append (t := []) (h part List.mem_cons_self) rfl
    simpa using hsplit
  | cons next parts ih =>
    intro h
    have hrest := ih next fun p hp => h p (List.mem_cons_of_mem _ hp)
    have hspaced : splitCommas ([' '] ++ [',', ' '].intercalate (next :: parts)) =
        (' ' :: next) :: parts.map (' ' :: ·) := splitCommas_append (by decide) hrest
    have hcomma : splitCommas (',' :: ([' '] ++ [',', ' '].intercalate (next :: parts))) =
        [] :: (' ' :: next) :: parts.map (' ' :: ·) := by
      rw [splitCommas, hspaced]
      rfl
    have hsplit := splitCommas_append (h part List.mem_cons_self) hcomma
    rw [List.append_nil] at hsplit
    rw [List.intercalate_cons_cons, List.append_assoc]
    exact hsplit

/-- What is in a separated list of texts is in the separator or in one of them. -/
theorem mem_intercalate {sep : Text} {c : Char} (parts : List Text) : c ∈ sep.intercalate parts →
    c ∈ sep ∨ ∃ p ∈ parts, c ∈ p := by
  induction parts with
  | nil => simp
  | cons part parts ih =>
    cases parts with
    | nil =>
      rw [List.intercalate_singleton]
      exact fun hc => .inr ⟨part, List.mem_cons_self, hc⟩
    | cons next parts =>
      intro hc
      rw [List.intercalate_cons_cons, List.mem_append, List.mem_append] at hc
      rcases hc with (hc | hc) | hc
      · exact .inr ⟨part, List.mem_cons_self, hc⟩
      · exact .inl hc
      · exact (ih hc).imp_right fun ⟨p, hp, hcp⟩ => ⟨p, List.mem_cons_of_mem _ hp, hcp⟩

/-! The characters of a call -/

theorem mnemonicText_plain (op : Operation) :
    ∀ c ∈ mnemonicText op, c ≠ '(' ∧ c ≠ ';' ∧ isBlank c = false := by
  cases op <;> simp [mnemonicText, isBlank]

theorem mnemonicText_ne_nil (op : Operation) : mnemonicText op ≠ [] := by
  cases op <;> decide

/-- A decimal literal has none of the characters that separate the parts of a line. -/
theorem sdec_plain {s : Int} {c : Char} (h : c ∈ sdec s) : c ≠ ',' ∧ c ≠ ';' ∧ isBlank c = false := by
  have hdigits : ∀ d < 10, digitChar d ≠ ',' ∧ digitChar d ≠ ';' ∧ isBlank (digitChar d) = false := by decide
  have hdec {n : Nat} (hc : c ∈ dec n) : c ≠ ',' ∧ c ≠ ';' ∧ isBlank c = false := by
    obtain ⟨d, hd, rfl⟩ := exists_digit_of_mem_dec n hc
    exact hdigits d hd
  rw [sdec_eq] at h
  split at h
  · rcases List.mem_cons.1 h with rfl | h
    · decide
    · exact hdec h
  · exact hdec h

theorem sdec_ne_nil (s : Int) : sdec s ≠ [] :=
  List.length_pos_iff.1 (sdec_length_pos s)

/-- An argument of a call reads as its literal, with the space before it or without. -/
theorem parseLiteral_trimBlanks_sdec {pre : Text} (hpre : ∀ c ∈ pre, isBlank c = true) (s : Int) :
    parseLiteral (trimBlanks (pre ++ sdec s)) = some s := by
  have hplain : ∀ c ∈ sdec s, isBlank c = false := by
    intro c hc
    obtain ⟨-, -, hblank⟩ := sdec_plain hc
    exact hblank
  have htrim := trimBlanks_pad (post := []) hpre (by simp) (sdec_ne_nil s)
    (fun c hc => hplain c (List.mem_of_head? hc)) (fun c hc => hplain c (List.mem_of_getLast? hc))
  rw [List.append_nil] at htrim
  rw [htrim, parseLiteral_sdec]

/-- Arguments that each read as their literal are read one by one. -/
theorem parseLiterals_map {f : Int → Text} (h : ∀ n, parseLiteral (trimBlanks (f n)) = some n) (ns : List Int) :
    parseLiterals (ns.map f) = some ns := by
  induction ns with
  | nil => rfl
  | cons n ns ih => simp only [List.map_cons, parseLiterals, h n, ih]

/-- The text between the parentheses of a call. -/
def argsText (args : List Int) : Text := [',', ' '].intercalate (args.map sdec)

/-- A call, as R61 writes it. -/
def callText (op : Operation) (args : List Int) : Text := mnemonicText op ++ '(' :: (argsText args ++ [')'])

/-- One or more arguments read back as the literals they show. -/
theorem parseLiterals_argsText (n : Int) (ns : List Int) :
    parseLiterals (splitCommas (argsText (n :: ns))) = some (n :: ns) := by
  have hcommas : ∀ p ∈ sdec n :: ns.map sdec, ',' ∉ p := by
    intro p hp hc
    obtain ⟨m, -, rfl⟩ := List.mem_map.1 (List.map_cons (f := sdec) ▸ hp : p ∈ (n :: ns).map sdec)
    exact (sdec_plain hc).1 rfl
  have hfirst : parseLiteral (trimBlanks (sdec n)) = some n := parseLiteral_trimBlanks_sdec (pre := []) (by simp) n
  have hrest : parseLiterals (ns.map fun m => ' ' :: sdec m) = some ns :=
    parseLiterals_map (fun m => parseLiteral_trimBlanks_sdec (pre := [' ']) (by simp [isBlank]) m) ns
  rw [argsText, List.map_cons, splitCommas_intercalate _ _ hcommas, List.map_map]
  simp only [parseLiterals, hfirst, Function.comp_def, hrest]

/-- No arguments are no literal. -/
theorem parseLiterals_argsText_nil : parseLiterals (splitCommas (argsText [])) = none := by decide

/-- A call holds no comment. -/
theorem callText_no_semicolon {op : Operation} {args : List Int} {c : Char} (h : c ∈ callText op args) : c ≠ ';' := by
  rw [callText, List.mem_append, List.mem_cons, List.mem_append, List.mem_singleton] at h
  rcases h with h | rfl | h | rfl
  · obtain ⟨-, hne, -⟩ := mnemonicText_plain op c h
    exact hne
  · decide
  · rcases mem_intercalate _ h with h | ⟨p, hp, hc⟩
    · have hsep : ∀ c ∈ [',', ' '], c ≠ ';' := by simp
      exact hsep c h
    · obtain ⟨n, -, rfl⟩ := List.mem_map.1 hp
      obtain ⟨-, hne, -⟩ := sdec_plain hc
      exact hne
  · decide

/-- A call is what is left of it before blanks. -/
theorem trimBlanks_callText {op : Operation} {args : List Int} {post : Text} (hpost : ∀ c ∈ post, isBlank c = true) :
    trimBlanks (callText op args ++ post) = callText op args := by
  refine trimBlanks_pad (pre := []) (t := callText op args) (by simp) hpost (by simp [callText]) (fun c hc => ?_) (fun c hc => ?_)
  · rw [callText, List.head?_append_of_ne_nil _ (mnemonicText_ne_nil op)] at hc
    obtain ⟨-, -, hblank⟩ := mnemonicText_plain op c (List.mem_of_head? hc)
    exact hblank
  · have hclose : c = ')' := by simpa [callText, List.getLast?_append, List.getLast?_cons, eq_comm] using hc
    rw [hclose]
    decide

theorem operationNamed_mnemonicText (op : Operation) : operationNamed (mnemonicText op) = some op := by
  cases op <;> decide

/-- A line whose body is a call reads as its operation and the literals of its arguments (R61). -/
theorem parseLine_of_body {line : Text} {op : Operation} {args : List Int}
    (h : trimBlanks (stripComment line) = callText op args) :
    parseLine line =
      (parseLiterals (splitCommas (argsText args))).elim (.error .badLiteral) fun ns => .ok ⟨op, ns⟩ := by
  have hname : ∀ c ∈ mnemonicText op, (c != '(') = true := fun c hc => bne_iff_ne.2 (mnemonicText_plain op c hc).1
  have hinside : (callText op args).dropWhile (· != '(') = '(' :: (argsText args ++ [')']) :=
    dropWhile_pad hname (by simp)
  have hbefore : (callText op args).takeWhile (· != '(') = mnemonicText op := by
    rw [callText, List.takeWhile_append_of_pos hname]
    simp
  simp only [parseLine, h, hinside, hbefore, List.reverse_append, List.reverse_cons, List.reverse_nil, List.nil_append,
    List.singleton_append, List.reverse_reverse, operationNamed_mnemonicText]
  cases parseLiterals (splitCommas (argsText args)) <;> rfl

/-- A call alone is the body of its line. -/
theorem body_callText (op : Operation) (args : List Int) :
    trimBlanks (stripComment (callText op args)) = callText op args := by
  have hstrip : stripComment (callText op args) = callText op args :=
    List.takeWhile_eq_self_iff.2 fun c hc => bne_iff_ne.2 (callText_no_semicolon hc)
  have htrim := trimBlanks_callText (op := op) (args := args) (post := []) (by simp)
  rw [List.append_nil] at htrim
  rw [hstrip, htrim]

/-- A call with a comment after it is the body of its line. -/
theorem body_callText_comment (op : Operation) (args : List Int) (comment : Text) :
    trimBlanks (stripComment (callText op args ++ ' ' :: ';' :: comment)) = callText op args := by
  have hstrip : stripComment (callText op args ++ ' ' :: ';' :: comment) = callText op args ++ [' '] := by
    rw [stripComment, List.takeWhile_append_of_pos fun c hc => bne_iff_ne.2 (callText_no_semicolon hc)]
    rfl
  rw [hstrip, trimBlanks_callText (by simp [isBlank])]

/-- A line whose body is a call with arguments reads as that call. -/
theorem parseLine_of_body_cons {line : Text} {op : Operation} {n : Int} {ns : List Int}
    (h : trimBlanks (stripComment line) = callText op (n :: ns)) : parseLine line = .ok ⟨op, n :: ns⟩ := by
  rw [parseLine_of_body h, parseLiterals_argsText]
  rfl

/-- Settles O7: with a comment or without, the body of the line is the call, and a call reads back. -/
theorem assemblerReadsTheCallSyntax : Obligations.AssemblerReadsTheCallSyntax := by
  have hread (op : Operation) (n : Int) (ns : List Int) (comment : Text) :
      parseLine (callText op (n :: ns) ++ ' ' :: ';' :: comment) = .ok ⟨op, n :: ns⟩ ∧
        parseLine (callText op (n :: ns)) = .ok ⟨op, n :: ns⟩ :=
    ⟨parseLine_of_body_cons (body_callText_comment op _ comment), parseLine_of_body_cons (body_callText op _)⟩
  refine ⟨fun op l r w comment => ?_, fun v w comment => ?_⟩
  · simpa [callText, argsText, List.intercalate_cons_cons] using hread op l [r, w] comment
  · simpa [callText, argsText, List.intercalate_cons_cons] using hread .format v [w] comment

/-- A call written with a wrong number of literals is refused: for its text if it has none, and else for their number. -/
theorem exists_assembleText_error {op : Operation} {args : List Int}
    (h : args.length ≠ if op = .format then 2 else 3) : ∃ e, assembleText (callText op args) = .error e := by
  have hbody := body_callText op args
  cases args with
  | nil =>
    have hline : parseLine (callText op []) = .error .badLiteral := by
      rw [parseLine_of_body hbody, parseLiterals_argsText_nil]
      rfl
    exact ⟨_, assembleText_of_parseLine_error hline⟩
  | cons n ns =>
    exact ⟨_, (assembleText_of_parseLine (parseLine_of_body_cons hbody)).trans (assemble_of_wrong_count h)⟩

/-- Settles O6, by the ranges of a well-formed line, the pattern of a negative literal, and the number of literals. -/
theorem assemblerTakesExactlyTheRanges : Obligations.AssemblerTakesExactlyTheRanges := by
  refine ⟨fun op l r w hop => ?_, fun v w => ?_, fun op l r w hop => assemble_of_negative_left hop r w,
    fun op args hcount => ⟨assemble_of_wrong_count hcount, fun line hline => ?_, ?_⟩⟩
  · rw [exists_assemble_iff_of_ne_format hop, wellFormed_of_ne_format hop, Bool.and_eq_true, Bool.and_eq_true,
      operandLiteralOk_iff, operandLiteralOk_iff, widthLiteralOk_iff, and_assoc]
  · rw [exists_assemble_format_iff, wellFormed_format, Bool.and_eq_true, operandLiteralOk_iff, widthLiteralOk_iff]
  · rw [assembleText_of_parseLine hline, assemble_of_wrong_count hcount]
  · simpa [callText, argsText] using exists_assembleText_error hcount

end Sys2Proof.Machine
end
